-- ==== Sys2Proof/Word.lean ====
section
/-! DEFINITION. The word types of the block: bytes, the 64-bit half of an operand register, addresses (00_scope.md R8 to R10). -/

namespace Sys2Proof

/-- One byte of memory or of an instruction. -/
abbrev Byte := BitVec 8

/-- One lane of a 128-bit operand register, or a general register (R9, R20). -/
abbrev Word := BitVec 64

/-- An address, held in 64 bits. In `Legacy32` only the low 32 bits are used and the others are zero (R7, R21). -/
abbrev Addr := BitVec 64

end Sys2Proof
end

