-- ==== Sys2Proof/Config.lean ====
section
/-! DEFINITION. The parameters of 00_scope.md R7 as plain data, and the free value `draw64()` of R13. -/

namespace Sys2Proof

/-- `MODE` (R7): the host's operating mode. It fixes decoding, the register count and the address width. -/
inductive Mode where
  | long64
  | legacy32
  deriving DecidableEq, Repr

/-- `BF_RANGE_POLICY` (R7, R102): what a bit-field operation does on a descriptor that is not valid. -/
inductive RangePolicy where
  | fault
  | draw
  deriving DecidableEq, Repr

/-- `MISALIGNED_NT_POLICY` (R7, R43): what a streaming store to a misaligned address does. -/
inductive MisalignedPolicy where
  | fault
  | perform
  deriving DecidableEq, Repr

/-- `OrdinaryMM` (R7, R53): how the host's ordinary stores reach memory. DESIGN CHOICE (log 13): the two
values are sequential consistency, and a store buffer for each thread (the operational model R152 speaks of). -/
inductive OrdinaryMM where
  | sequential
  | storeBuffered
  deriving DecidableEq, Repr

/-- `FetchCoherence` (R7, R57): when committed bytes become visible to instruction fetch. DESIGN CHOICE (log 14):
at once, or when the host makes them visible to the thread. -/
inductive FetchCoherence where
  | coherent
  | deferred
  deriving DecidableEq, Repr

/-- The parameters of R7 that belong to the whole machine. No step changes them (R24). -/
structure Platform where
  mode           : Mode
  capSse4a       : Bool
  capFence       : Bool
  bfRange        : RangePolicy
  misalignedNt   : MisalignedPolicy
  ordinaryMM     : OrdinaryMM
  fetchCoherence : FetchCoherence
  deriving DecidableEq, Repr

/-- One part of `ValidWrite` (R7, R48): a store of `size` bytes whose address lies from `first` to `last` is
permitted. A list of windows can say any set of (address, size) pairs (log 3). -/
structure WriteWindow where
  size  : Nat
  first : Nat
  last  : Nat
  deriving DecidableEq, Repr

/-- The value of the `n`-th `draw64()` of a run (R13): a free value, under no law (log 8). -/
opaque Config.draw : Nat → Word

/-- The parameters after reset. The two policies are the spec's defaults (D3, D5); the others are OPEN in R7 and
are DESIGN CHOICE or PRESUMED (log 2). -/
def Config.resetPlatform : Platform where
  mode           := .long64
  capSse4a       := true
  capFence       := true
  bfRange        := .fault
  misalignedNt   := .fault
  ordinaryMM     := .storeBuffered
  fetchCoherence := .coherent

/-- `ValidWrite` after reset: every 8-byte and every 4-byte store that does not run past the top of the address
space. DESIGN CHOICE (log 3): R7 leaves it OPEN. -/
def Config.resetWindows : List WriteWindow :=
  [{ size := 8, first := 0, last := 2 ^ 64 - 8 }, { size := 4, first := 0, last := 2 ^ 64 - 4 }]

end Sys2Proof
end

