-- ==== Sys2Proof/Syntax.lean ====
section
/-! DEFINITION. The five instructions of the block (30_encoding.md R82), one constructor per row of the opcode table. -/

namespace Sys2Proof

/-- The operations, as the faults of 60_exceptions.md name them. -/
inductive Op where
  | extrq
  | insertq
  | movntsd
  | movntss
  | sfence
  deriving DecidableEq, Repr

/-- The number of a 128-bit operand register (R25): `0 .. NUM_XMM-1`. -/
abbrev XReg := Fin 16

/-- The number of a general register (R20), in the order RAX, RCX, RDX, RBX, RSP, RBP, RSI, RDI, R8 to R15. -/
abbrev GReg := Fin 16

/-- Which half of an operand register (R9). -/
inductive LaneNo where
  | lane0
  | lane1
  deriving DecidableEq, Repr

/-- The displacement of a format M operand (R77, R80): `mod` 00, 01 or 10. -/
inductive Disp where
  | none
  | d8  (v : BitVec 8)
  | d32 (v : BitVec 32)
  deriving DecidableEq, Repr

/-- An instruction. `rex` says whether a REX byte is present: it may be there although no register needs it, and the
instruction is then one byte longer (R78, R86). -/
inductive Instr where
  /-- `EXTRQ xmm(d), xmm(s)` (R100). -/
  | extrq (rex : Bool) (d s : XReg)
  /-- `INSERTQ xmm(d), xmm(s)` (R110). -/
  | insertq (rex : Bool) (d s : XReg)
  /-- `MOVNTSD m64, xmm(s)` (R133). -/
  | movntsd (rex : Bool) (b : GReg) (disp : Disp) (s : XReg)
  /-- `MOVNTSS m32, xmm(s)` (R138). -/
  | movntss (rex : Bool) (b : GReg) (disp : Disp) (s : XReg)
  /-- `SFENCE` (R151). -/
  | sfence
  deriving DecidableEq, Repr

end Sys2Proof
end

