-- ==== Sys2Proof/WellFormed.lean ====
section
/-! DEFINITION. Which instructions have an encoding in the admitted subset (30_encoding.md R76 to R78, R84). -/

namespace Sys2Proof

/-- A REX byte exists only in `Long64`; without one, a register number has three bits (R76 to R78). -/
def regsFit (m : Mode) (rex : Bool) (reg rm : Fin 16) : Bool :=
  if rex then m == .long64 else decide (reg.val < 8) && decide (rm.val < 8)

/-- `rm = 100` needs a SIB byte, and `mod = 00` with `rm = 101` is RIP-relative or absolute: both are refused (R77, R84). -/
def baseFits (b : GReg) : Disp → Bool
  | .none  => decide (b.val % 8 ≠ 4) && decide (b.val % 8 ≠ 5)
  | .d8 _  => decide (b.val % 8 ≠ 4)
  | .d32 _ => decide (b.val % 8 ≠ 4)

/-- The instruction has an encoding that the decoder admits in mode `m`. -/
def Instr.wellFormed (m : Mode) : Instr → Bool
  | .extrq rex d s        => regsFit m rex d s
  | .insertq rex d s      => regsFit m rex d s
  | .movntsd rex b disp s => regsFit m rex s b && baseFits b disp
  | .movntss rex b disp s => regsFit m rex s b && baseFits b disp
  | .sfence               => true

end Sys2Proof
end

