-- ==== Sys2Proof/Decode.lean ====
section
/-! DEFINITION. The decoder, total on any byte string (30_encoding.md R75 to R86), then the encoder written from the same tables. -/

namespace Sys2Proof

/-- Why the decoder gives a byte string no meaning (R84). -/
inductive Reject where
  /-- The string ends before the instruction does: no verdict on these bytes alone. -/
  | truncated
  /-- `66 0F 78 /0` or `F2 0F 78 /r`: EXTRQ or INSERTQ with immediates. -/
  | immediateForm
  /-- Format M with `rm = 100`: a SIB byte. -/
  | sib
  /-- Format M with `mod = 00`, `rm = 101`: RIP-relative or absolute. -/
  | ripRelative
  /-- A REX byte with `W = 1` or `X = 1`. -/
  | rexWX
  /-- `40` to `4F` in `Legacy32`. -/
  | rexInLegacy32
  /-- A REX byte that is not between the mandatory prefix and `0F`. -/
  | rexMisplaced
  /-- A prefix other than one mandatory prefix and one REX. -/
  | otherPrefix
  /-- A VEX or EVEX form. -/
  | vexEvex
  /-- `0F AE` with ModRM `F9` to `FF`. -/
  | fenceModrm
  /-- Every other opcode. -/
  | otherOpcode
  deriving DecidableEq, Repr

/-- The decoder's verdict: an admitted instruction, an illegal form of `op` recognised after `n` bytes (R83), or a refusal (R84). -/
inductive Decoded where
  | ok (i : Instr)
  | illegal (op : Op) (n : Nat)
  | refused (r : Reject)
  deriving DecidableEq, Repr

/-- The mandatory prefix (R75). -/
inductive Prefix where
  | p66
  | pF2
  | pF3
  deriving DecidableEq, Repr

/-- The bits of an admitted REX byte (R78). -/
structure RexBits where
  r : Bool
  b : Bool
  deriving DecidableEq, Repr

def prefixOf (b : Byte) : Option Prefix :=
  if b = 0x66 then some .p66 else if b = 0xF2 then some .pF2 else if b = 0xF3 then some .pF3 else none

/-- `40` to `4F`: a REX byte in `Long64` (R78). -/
def isRex (b : Byte) : Bool := b.extractLsb' 4 4 == 4

/-- The refused prefixes of R84: `67`, the segment overrides, `F0`, and a second mandatory prefix. -/
def isOtherPrefix (b : Byte) : Bool :=
  b ∈ ([0x67, 0x26, 0x2E, 0x36, 0x3E, 0x64, 0x65, 0xF0, 0x66, 0xF2, 0xF3] : List Byte)

/-- The bytes that open a VEX or EVEX form (R84). PRESUMED values `C4`, `C5`, `62` (log 18): every one is refused anyway. -/
def isVexEvex (b : Byte) : Bool := b ∈ ([0xC4, 0xC5, 0x62] : List Byte)

/-- The name of the refusal for a byte that can stand neither as REX nor as `0F` (R84). -/
def rejectByte (b : Byte) : Reject :=
  if isOtherPrefix b then .otherPrefix else if isVexEvex b then .vexEvex else .otherOpcode

/-- `REX.R ++ reg` or `REX.B ++ rm` (R76, R77). -/
def regNum (hi : Bool) (lo : BitVec 3) : Fin 16 := (BitVec.ofBool hi ++ lo).toFin

def modField (modrm : Byte) : BitVec 2 := modrm.extractLsb' 6 2
def regField (modrm : Byte) : BitVec 3 := modrm.extractLsb' 3 3
def rmField (modrm : Byte) : BitVec 3 := modrm.extractLsb' 0 3

/-- `REX.R ++ reg`; without REX, `REX.R = 0` (R76). -/
def regOf (rex : Option RexBits) (modrm : Byte) : Fin 16 :=
  regNum ((rex.map RexBits.r).getD false) (regField modrm)

/-- `REX.B ++ rm`; without REX, `REX.B = 0` (R76). -/
def rmOf (rex : Option RexBits) (modrm : Byte) : Fin 16 :=
  regNum ((rex.map RexBits.b).getD false) (rmField modrm)

/-- How many bytes the opcode part takes, ModRM included: `4 + rex` (R86). -/
def modrmEnd (rex : Option RexBits) : Nat := if rex.isSome then 5 else 4

/-- Format RR (R76); `mod != 11` is illegal (R83). -/
def decodeRR (op : Op) (mk : Bool → XReg → XReg → Instr) (rex : Option RexBits) : List Byte → Decoded
  | [] => .refused .truncated
  | modrm :: _ =>
    if modField modrm = 3 then .ok (mk rex.isSome (regOf rex modrm) (rmOf rex modrm))
    else .illegal op (modrmEnd rex)

/-- The displacement that `mod` asks for (R77, R80), little-endian (R41). -/
def decodeDisp (mod : BitVec 2) (rest : List Byte) : Option Disp :=
  if mod = 0 then some .none
  else if mod = 1 then
    match rest with
    | b0 :: _ => some (.d8 b0)
    | [] => none
  else
    match rest with
    | b0 :: b1 :: b2 :: b3 :: _ => some (.d32 (b3 ++ b2 ++ b1 ++ b0))
    | _ => none

/-- Format M (R77); `mod = 11` is illegal (R83); a SIB byte and `mod = 00, rm = 101` are refused (R84). -/
def decodeM (op : Op) (mk : Bool → GReg → Disp → XReg → Instr) (rex : Option RexBits) : List Byte → Decoded
  | [] => .refused .truncated
  | modrm :: rest =>
    if modField modrm = 3 then .illegal op (modrmEnd rex)
    else if rmField modrm = 4 then .refused .sib
    else if modField modrm = 0 ∧ rmField modrm = 5 then .refused .ripRelative
    else
      match decodeDisp (modField modrm) rest with
      | some disp => .ok (mk rex.isSome (rmOf rex modrm) disp (regOf rex modrm))
      | none => .refused .truncated

/-- `66 0F 78 /0` is EXTRQ with immediates; another `reg` field there is another opcode (R84). -/
def decodeImm66 : List Byte → Decoded
  | [] => .refused .truncated
  | modrm :: _ => .refused (if regField modrm = 0 then .immediateForm else .otherOpcode)

/-- The opcode map behind a mandatory prefix, an optional REX and `0F` (R82, R84). -/
def decodeOpcode (p : Prefix) (rex : Option RexBits) : List Byte → Decoded
  | [] => .refused .truncated
  | op :: rest =>
    if op = 0x79 then
      match p with
      | .p66 => decodeRR .extrq .extrq rex rest
      | .pF2 => decodeRR .insertq .insertq rex rest
      | .pF3 => .refused .otherOpcode
    else if op = 0x2B then
      match p with
      | .p66 => .refused .otherOpcode
      | .pF2 => decodeM .movntsd .movntsd rex rest
      | .pF3 => decodeM .movntss .movntss rex rest
    else if op = 0x78 then
      match p with
      | .p66 => decodeImm66 rest
      | .pF2 => .refused .immediateForm
      | .pF3 => .refused .otherOpcode
    else .refused .otherOpcode

/-- A REX byte must be one of `40`, `41`, `44`, `45` and sit directly before `0F` (R78, R84). -/
def decodeRex (m : Mode) (p : Prefix) (b : Byte) (rest : List Byte) : Decoded :=
  if m = .legacy32 then .refused .rexInLegacy32
  else if b.getLsbD 3 || b.getLsbD 1 then .refused .rexWX
  else
    match rest with
    | [] => .refused .truncated
    | c :: rest =>
      if c = 0x0F then decodeOpcode p (some { r := b.getLsbD 2, b := b.getLsbD 0 }) rest
      else .refused .rexMisplaced

/-- What follows a mandatory prefix (R75). -/
def decodeAfterPrefix (m : Mode) (p : Prefix) : List Byte → Decoded
  | [] => .refused .truncated
  | b :: rest =>
    if b = 0x0F then decodeOpcode p none rest
    else if isRex b then decodeRex m p b rest
    else .refused (rejectByte b)

/-- The ModRM byte of `0F AE` (R79, R84). -/
def decodeFenceModrm : List Byte → Decoded
  | [] => .refused .truncated
  | modrm :: _ =>
    if modrm = 0xF8 then .ok .sfence
    else .refused (if 0xF9 ≤ modrm then .fenceModrm else .otherOpcode)

/-- What follows `0F` with no prefix: format F (R79). -/
def decodeFence : List Byte → Decoded
  | [] => .refused .truncated
  | op :: rest => if op = 0xAE then decodeFenceModrm rest else .refused .otherOpcode

/-- The decoder (R75, R84): an admitted instruction, an illegal form, or a refusal by name, on any byte string. -/
def decode (m : Mode) : List Byte → Decoded
  | [] => .refused .truncated
  | b :: rest =>
    if b = 0x0F then decodeFence rest
    else
      match prefixOf b with
      | some p => decodeAfterPrefix m p rest
      | none =>
        if isRex b then .refused (if m = .legacy32 then .rexInLegacy32 else .rexMisplaced)
        else .refused (rejectByte b)

/-! ### Lengths and the encoder -/

/-- The displacement's bytes: 0, 1 or 4 (R86). -/
def Disp.length : Disp → Nat
  | .none  => 0
  | .d8 _  => 1
  | .d32 _ => 4

/-- Instruction length `L` (R86). -/
def Instr.length : Instr → Nat
  | .extrq rex _ _        => 4 + rex.toNat
  | .insertq rex _ _      => 4 + rex.toNat
  | .movntsd rex _ disp _ => 4 + rex.toNat + disp.length
  | .movntss rex _ disp _ => 4 + rex.toNat + disp.length
  | .sfence               => 3

/-- The longest instruction: format M with REX and disp32 (R86). -/
def maxLength : Nat := 9

/-- The operation of an instruction, as faults name it (R161). -/
def Instr.op : Instr → Op
  | .extrq ..   => .extrq
  | .insertq .. => .insertq
  | .movntsd .. => .movntsd
  | .movntss .. => .movntss
  | .sfence     => .sfence

/-- The REX byte `0100 W R X B` with `W = X = 0`, where present (R78). -/
def rexBytes (rex : Bool) (reg rm : Fin 16) : List Byte :=
  if rex then [(4 : BitVec 4) ++ (0 : BitVec 1) ++ BitVec.ofBool (decide (8 ≤ reg.val)) ++ (0 : BitVec 1)
    ++ BitVec.ofBool (decide (8 ≤ rm.val))] else []

/-- `mod`, the low three bits of `reg`, the low three bits of `rm` (R76, R77). -/
def modrmByte (mod : BitVec 2) (reg rm : Fin 16) : Byte :=
  mod ++ BitVec.ofNat 3 reg.val ++ BitVec.ofNat 3 rm.val

def Disp.mod : Disp → BitVec 2
  | .none  => 0
  | .d8 _  => 1
  | .d32 _ => 2

/-- The displacement's bytes, little-endian (R77, R41). -/
def Disp.bytes : Disp → List Byte
  | .none  => []
  | .d8 v  => [v]
  | .d32 v => [v.extractLsb' 0 8, v.extractLsb' 8 8, v.extractLsb' 16 8, v.extractLsb' 24 8]

def encodeRR (p : Byte) (rex : Bool) (d s : XReg) : List Byte :=
  p :: (rexBytes rex d s ++ [0x0F, 0x79, modrmByte 3 d s])

def encodeM (p : Byte) (rex : Bool) (b : GReg) (disp : Disp) (s : XReg) : List Byte :=
  p :: (rexBytes rex s b ++ [0x0F, 0x2B, modrmByte disp.mod s b] ++ disp.bytes)

/-- The bytes of an instruction (R75 to R79, R82). -/
def encode : Instr → List Byte
  | .extrq rex d s        => encodeRR 0x66 rex d s
  | .insertq rex d s      => encodeRR 0xF2 rex d s
  | .movntsd rex b disp s => encodeM 0xF2 rex b disp s
  | .movntss rex b disp s => encodeM 0xF3 rex b disp s
  | .sfence               => [0x0F, 0xAE, 0xF8]

/-! ### The opcode table's numbering -/

/-- The low `8k` bits of `w` as `k` bytes, the most significant byte first. -/
def bigEndian : Nat → Nat → List Byte
  | 0, _ => []
  | k + 1, w => bigEndian k (w / 256) ++ [BitVec.ofNat 8 w]

/-- The bytes of an instruction whose number in the opcode table is `w`, `nbits` wide: 30_encoding.md numbers a row with
the FIRST byte the most significant. Bytes above `nbits` are zero, up to the longest instruction (log 17). -/
def tableBytes (nbits w : Nat) : List Byte :=
  bigEndian (nbits / 8) w ++ List.replicate (maxLength - nbits / 8) 0

/-- What the decoder reads, in `Long64`, from an instruction numbered as spec/opcode_table.json numbers it. -/
def decodeTableWord (nbits w : Nat) : Option Instr :=
  match decode .long64 (tableBytes nbits w) with
  | .ok i => some i
  | .illegal .. => none
  | .refused _ => none

end Sys2Proof
end

