-- ==== Sys2Proof/Machine/State.lean ====
section
/-! DEFINITION. The machine's state as plain data (10_state.md R20 to R32), the faults of 60_exceptions.md and the refusals. -/

namespace Sys2Proof.Machine

/-- Data memory (R29): (address, byte) pairs, addresses strictly rising. Each address holds one byte; one that is not listed
holds `Memory.unlisted` (log 7). -/
abbrev Memory := List Host.Cell

/-- One lane of an operand register, with its written mark (R26). -/
structure Lane where
  val     : Word
  written : Bool
  deriving DecidableEq, Repr

/-- An operand register: a lane pair (R9, R25), and the host's bits above bit 127 as a number (log 20). -/
structure XEntry where
  lane0 : Lane
  lane1 : Lane
  upper : Nat
  deriving DecidableEq, Repr

/-- A pending non-temporal store (R27). -/
structure NTEntry where
  addr  : Addr
  n     : Nat
  bytes : List Byte
  deriving DecidableEq, Repr

/-- An ordinary store of the host that waits in its thread's store buffer (R152, log 13). -/
structure BufferedStore where
  addr  : Addr
  bytes : List Byte
  deriving DecidableEq, Repr

/-- What each hardware thread has of its own (R178). -/
structure Thread where
  /-- The thread's identity, which is the host's (R178). -/
  id       : Nat
  /-- The operand registers (R25); `Legacy32` has the first eight. -/
  x        : Vector XEntry 16
  /-- The general registers (R20); `Legacy32` has the low 32 bits of the first eight. -/
  g        : Vector Word 16
  /-- The host's program counter (R21). -/
  pc       : Addr
  /-- `NTBuf`, oldest entry first (R27). -/
  nt       : List NTEntry
  /-- `ValidWrite` for this thread (R48, log 3). -/
  windows  : List WriteWindow
  /-- The host's ordinary stores that are not yet visible, oldest first (R152, log 13). -/
  storeBuf : List BufferedStore
  /-- What the thread's instruction fetch sees where `FetchCoherence` is deferred (R57, log 14). -/
  imem     : Memory
  /-- The thread has ended its run, or has returned control outside the program (R56, R166, log 22). -/
  ended    : Bool
  deriving DecidableEq, Repr

/-- Who makes a memory access (R50, R165). -/
inductive Access where
  | streamingStore (op : Op)
  | ordinaryLoad
  | ordinaryStore
  | fetch
  | hostRead
  deriving DecidableEq, Repr

/-- The faults of 60_exceptions.md R168, each with the entry `(reason, thread, pc, info)` of R160.
Every fault errs toward unprovable (R160). -/
inductive Fault where
  /-- Code 1, trap (R161): all five instructions where the capability is absent, and the fetch of an illegal ModRM form. Safe. -/
  | invalidOpcode (thread : Nat) (pc : Addr) (op : Op) (bytes : List Byte)
  /-- Code 2, trap (R163): MOVNTSD and MOVNTSS where `ValidWrite` is false. Safe. -/
  | memoryFault (thread : Nat) (pc : Addr) (op : Op) (ea : Addr) (n : Nat)
  /-- Code 3, contract (R162): EXTRQ and INSERTQ where the descriptor is not valid and the policy is `Fault`. Safe. -/
  | bitfieldRange (thread : Nat) (pc : Addr) (op : Op) (idx len : Nat) (desc : Word)
  /-- Code 4, contract (R164): MOVNTSD and MOVNTSS at a misaligned address where the policy is `Fault`. Safe. -/
  | misaligned (thread : Nat) (pc : Addr) (op : Op) (ea : Addr) (n : Nat)
  /-- Code 5, contract (R165): any access whose bytes meet `AllPending`. Safe. -/
  | unfencedAccess (thread : Nat) (pc : Addr) (access : Access) (addr : Addr) (n owner : Nat)
  /-- Code 6, contract (R166): a thread that ends its run with pending entries. Safe. -/
  | unfencedAtEnd (thread : Nat) (pc : Addr) (entries : List NTEntry)
  /-- Code 7, model (R167): an instruction that reads a lane whose written mark is clear. Safe. -/
  | unwrittenRead (thread : Nat) (pc : Addr) (i : XReg) (lane : LaneNo)
  deriving DecidableEq, Repr

/-- Why a step has no meaning. A refusal sets the refused mark (R169) and errs toward unprovable. -/
inductive Refusal where
  /-- An instruction that has no meaning yet: raised by an arm of `exec` alone. Safe. -/
  | notModelled (mnemonic : String)
  /-- The decoder refuses the encoding (R84): raised by the fetch. Safe. -/
  | encoding (r : Reject)
  /-- The host turns to a thread that the machine does not have (R178): raised by a step (log 12). Safe. -/
  | noSuchThread (thread : Nat)
  deriving DecidableEq, Repr

/-- What a step records. The first three are the events of R132 and R151; the others are the host's accesses (log 21). -/
inductive Event where
  | ntIssue (thread : Nat) (ea : Addr) (n : Nat) (bytes : List Byte)
  | ntCommit (thread : Nat) (addr : Addr) (n : Nat) (bytes : List Byte)
  | fence (thread : Nat)
  | load (thread : Nat) (addr : Addr) (bytes : List Byte)
  | store (thread : Nat) (addr : Addr) (bytes : List Byte)
  | read (addr : Addr) (bytes : List Byte)
  deriving DecidableEq, Repr

/-- What the host does between two instructions of the block (R6, log 12). Accesses are the current thread's. -/
inductive HostAct where
  /-- The host lets thread `a` run next (R6, R178). -/
  | switch (a : Nat)
  /-- An ordinary load of `n` bytes (R50). -/
  | load (addr : Addr) (n : Nat)
  /-- An ordinary store (R50). -/
  | store (addr : Addr) (bytes : List Byte)
  /-- The oldest buffered ordinary store of thread `a` becomes visible (R152). -/
  | drain (a : Nat)
  /-- Committed bytes become visible to the current thread's instruction fetch (R57). -/
  | syncFetch (addr : Addr) (n : Nat)
  /-- The host writes an operand register (R26, R192). -/
  | writeX (i : XReg) (v : BitVec 128)
  /-- The host writes a general register (R20). -/
  | writeG (r : GReg) (v : Word)
  /-- The host's own code transfers control (R21, R22). -/
  | jump (pc : Addr)
  /-- The current thread ends its run, or returns control to code outside the program (R56). -/
  | endRun
  /-- The host reads memory after a run (R50). -/
  | read (addr : Addr) (n : Nat)
  deriving DecidableEq, Repr

/-- Who moves next: the current thread issues its next instruction, or the host acts. -/
inductive Turn where
  | issue
  | host (act : HostAct)
  deriving DecidableEq, Repr

/-- The machine. -/
structure State where
  /-- The parameters of R7, which no step changes (R24). -/
  platform : Platform
  /-- The thread that issues: `self` of R132 and R151. -/
  cur      : Thread
  /-- The other hardware threads (R178). -/
  others   : List Thread
  /-- Data memory, shared by all threads (R29). -/
  mem      : Memory
  /-- The fault record: a set, held without repeats (R30). -/
  faults   : List Fault
  /-- The refused mark, with the reason of the refusal (R169). -/
  refused  : Option Refusal
  /-- The events recorded, oldest first (R132, R151). -/
  events   : List Event
  /-- How many `draw64()` values were taken (R13). The model's own (log 8). -/
  draws    : Nat
  /-- The turns to come; where it is empty the current thread issues. The model's own (log 12). -/
  agenda   : List Turn
  deriving DecidableEq, Repr

/-- An operand register after reset: both marks clear (R32), the values DESIGN CHOICE (log 4). -/
def XEntry.reset : XEntry where
  lane0 := { val := 0, written := false }
  lane1 := { val := 0, written := false }
  upper := 0

/-- The one thread after reset (logs 4 to 6, 11). -/
def Thread.reset : Thread where
  id       := 0
  x        := Vector.replicate 16 XEntry.reset
  g        := Vector.replicate 16 0
  pc       := 0
  nt       := []
  windows  := Config.resetWindows
  storeBuf := []
  imem     := []
  ended    := false

/-- The machine right after reset (R32, R190). -/
def State.reset : State where
  platform := Config.resetPlatform
  cur      := Thread.reset
  others   := []
  mem      := []
  faults   := []
  refused  := none
  events   := []
  draws    := 0
  agenda   := []

end Sys2Proof.Machine
end

