-- ==== Sys2Proof/Machine/Operands.lean ====
section
/-! DEFINITION. Addresses (00_scope.md R10, 30_encoding.md R80), the bit-field descriptor (R70 to R74) and the codec's
functions (40_bitfield.md R100, R110). The block has no flags (10_state.md R23). -/

namespace Sys2Proof.Machine

/-! ### Addresses -/

/-- `ADDR_WIDTH` (R7). -/
def addrWidth : Mode → Nat
  | .long64   => 64
  | .legacy32 => 32

/-- `NUM_XMM` (R7). -/
def numXmm : Mode → Nat
  | .long64   => 16
  | .legacy32 => 8

/-- An address modulo `2^ADDR_WIDTH` (R10). -/
def wrap (m : Mode) (a : Addr) : Addr :=
  match m with
  | .long64   => a
  | .legacy32 => (a.setWidth 32).setWidth 64

/-- The addresses `(ea + k) mod 2^ADDR_WIDTH` for `k < n` (R28, R132). -/
def byteAddrs (m : Mode) (ea : Addr) (n : Nat) : List Addr :=
  (List.range n).map fun k => wrap m (ea + BitVec.ofNat 64 k)

/-- The displacement, sign-extended (R80). In `Legacy32` the sum's low 32 bits are those of the 32 bits used as they are. -/
def dispValue : Disp → Addr
  | .none  => 0
  | .d8 v  => v.signExtend 64
  | .d32 v => v.signExtend 64

/-- The bytes of the low `8n` bits of `v`, least significant first (R41). -/
def littleEndian (n : Nat) (v : Word) : List Byte :=
  (List.range n).map fun k => v.extractLsb' (8 * k) 8

/-! ### The descriptor -/

/-- A descriptor's length, index and validity (R71). -/
structure DescFields where
  len   : Nat
  idx   : Nat
  valid : Bool
  deriving DecidableEq, Repr

/-- `Desc` (R71): reads bits `[5:0]` and `[13:8]` alone; a raw length of 0 is 64; the sum is exact. -/
def decodeDesc (c : Word) : DescFields :=
  let raw := (c.extractLsb' 0 6).toNat
  let idx := (c.extractLsb' 8 6).toNat
  let len := if raw = 0 then 64 else raw
  { len := len, idx := idx, valid := decide (idx + len ≤ 64) }

/-- `Enc` (R74): a descriptor word for tests and programs. -/
def encodeDesc (idx len : Nat) : Word := BitVec.ofNat 64 ((idx <<< 8) ||| (len % 64))

/-! ### The codec -/

/-- `Mask(len)` for `1 <= len <= 64` (R11): bits `[len-1:0]` are one. -/
def mask (len : Nat) : Word := BitVec.allOnes 64 >>> (64 - len)

/-- Lane 0 of EXTRQ's result (R100). -/
def extractField (a : Word) (len idx : Nat) : Word := (a >>> idx) &&& mask len

/-- Lane 0 of INSERTQ's result (R110). -/
def insertField (a b : Word) (len idx : Nat) : Word :=
  (a &&& ~~~(mask len <<< idx)) ||| ((b &&& mask len) <<< idx)

end Sys2Proof.Machine
end

