-- ==== Sys2Proof/Machine/Ops.lean ====
section
/-! DEFINITION. The named operations over memory, registers, threads, pending stores and the fault record. -/

namespace Sys2Proof.Machine

/-! ### Memory -/

/-- What an address that is not listed holds. R32 leaves the contents after reset to the host: DESIGN CHOICE (log 7). -/
def Memory.unlisted : Byte := 0

/-- The canonical form: addresses strictly rising, and no entry that holds what an unlisted address holds, so that equal
memories are equal lists. -/
abbrev Memory.wf (m : Memory) : Prop :=
  List.Pairwise (fun x y : Host.Cell => x.1 < y.1) m ∧ ∀ c ∈ m, c.2 ≠ Memory.unlisted

/-- The byte at an address: every address has one (R29). -/
def Memory.read : Memory → Nat → Byte
  | [], _ => Memory.unlisted
  | c :: m, a => if c.1 = a then c.2 else Memory.read m a

/-- Lists one byte in its place. -/
def Memory.insert : Memory → Nat → Byte → Memory
  | [], a, b => [(a, b)]
  | c :: m, a, b =>
    if a < c.1 then (a, b) :: c :: m
    else if a = c.1 then (a, b) :: m
    else c :: Memory.insert m a b

/-- Writes one byte, keeping the canonical form: what an unlisted address holds anyway is not listed. -/
def Memory.write (m : Memory) (a : Nat) (b : Byte) : Memory :=
  if b = Memory.unlisted then m.filter fun c => c.1 != a else m.insert a b

/-- `MemWrite` (R13, R41): bytes in increasing address order, modulo `2^ADDR_WIDTH`. -/
def Memory.writeBytes (md : Mode) : Memory → Addr → List Byte → Memory
  | m, _, [] => m
  | m, a, b :: bs => Memory.writeBytes md (m.write (wrap md a).toNat b) (a + 1) bs

/-- The bytes at a list of addresses. -/
def Memory.readAll (m : Memory) (as : List Addr) : List Byte := as.map fun a => m.read a.toNat

/-- Commits pending entries in list order (R151). -/
def commitEntries (md : Mode) (m : Memory) : List NTEntry → Memory
  | [] => m
  | e :: es => commitEntries md (m.writeBytes md e.addr e.bytes) es

/-- Makes buffered ordinary stores visible, oldest first (R152). -/
def drainStores (md : Mode) (m : Memory) : List BufferedStore → Memory
  | [] => m
  | e :: es => drainStores md (m.writeBytes md e.addr e.bytes) es

/-! ### Threads and pending stores -/

/-- The mode of the machine. -/
abbrev State.mode (s : State) : Mode := s.platform.mode

/-- All hardware threads, the issuing one first. -/
def State.threads (s : State) : List Thread := s.cur :: s.others

/-- `PendingBytes(a)` (R28). -/
def Thread.pendingBytes (md : Mode) (t : Thread) : List Addr :=
  t.nt.flatMap fun e => byteAddrs md e.addr e.n

/-- `AllPending` (R28). -/
def State.allPending (s : State) : List Addr :=
  s.threads.flatMap fun t => t.pendingBytes s.mode

/-- A thread whose pending bytes meet `B`: the first one found, where there are several (R132, log 16). -/
def State.ownerOf (s : State) (B : List Addr) : Option Nat :=
  (s.threads.find? fun t => B.any fun a => decide (a ∈ t.pendingBytes s.mode)).map Thread.id

/-- `ValidWrite(ea, n)` for a thread (R48). -/
def Thread.validWrite (t : Thread) (ea : Addr) (n : Nat) : Bool :=
  t.windows.any fun w => w.size == n && decide (w.first ≤ ea.toNat) && decide (ea.toNat ≤ w.last)

/-- The thread with an identity. -/
def State.findThread (s : State) (a : Nat) : Option Thread := s.threads.find? fun t => t.id == a

/-- Changes the thread with identity `a`. -/
def State.modifyThread (s : State) (a : Nat) (f : Thread → Thread) : State :=
  let g := fun t => if t.id = a then f t else t
  { s with cur := g s.cur, others := s.others.map g }

/-! ### Registers -/

def XEntry.lane (e : XEntry) : LaneNo → Lane
  | .lane0 => e.lane0
  | .lane1 => e.lane1

/-- A lane of `X[i]` of the issuing thread (R12). -/
def State.lane (s : State) (i : XReg) (l : LaneNo) : Lane := (s.cur.x.get i).lane l

/-- An operand register written with `hi ++ lo`: both marks set (R26), the host's bits above 127 kept (R25). -/
def XEntry.wrote (e : XEntry) (hi lo : Word) : XEntry where
  lane0 := { val := lo, written := true }
  lane1 := { val := hi, written := true }
  upper := e.upper

/-- `X[i] <- hi ++ lo` (R12). -/
def Thread.setX (t : Thread) (i : XReg) (hi lo : Word) : Thread :=
  { t with x := t.x.set i.val ((t.x.get i).wrote hi lo) i.isLt }

def State.setX (s : State) (i : XReg) (hi lo : Word) : State := { s with cur := s.cur.setX i hi lo }

/-- `G[b][ADDR_WIDTH-1:0] + disp` modulo `2^ADDR_WIDTH` (R80, R131). -/
def State.effectiveAddress (s : State) (b : GReg) (disp : Disp) : Addr :=
  wrap s.mode (s.cur.g.get b + dispValue disp)

/-- `pc <- pc + L` modulo `2^ADDR_WIDTH` (R22). -/
def State.advance (s : State) (L : Nat) : State :=
  { s with cur := { s.cur with pc := wrap s.mode (s.cur.pc + BitVec.ofNat 64 L) } }

/-- `draw64()` (R13): a fresh free value, and the state with one more value taken (log 8). -/
def State.draw64 (s : State) : Word × State := (Config.draw s.draws, { s with draws := s.draws + 1 })

/-- Records an event (R132, R151). -/
def State.record (s : State) (e : Event) : State := { s with events := s.events ++ [e] }

/-! ### Faults -/

/-- `raise` (R13, R160): the step ends with the fault and changes no state; the fault is the entry
`(reason, thread, pc, info)` that `settle` puts into the fault record (log 9). -/
def State.raise (_ : State) (f : Fault) : Host.Outcome State Fault Refusal := .fault f

/-- Ends a step whose faults are checked in the listed order: the first that applies is raised (R170), and where
none applies the step completes. -/
def State.complete (s : State) (checks : List (Option Fault)) (t : State) : Host.Outcome State Fault Refusal :=
  match checks.findSome? id with
  | some f => s.raise f
  | none => .next t

/-- Adds an entry to the fault record, which is a set (R30, R160). -/
def State.recordFault (s : State) (f : Fault) : State :=
  if f ∈ s.faults then s else { s with faults := s.faults ++ [f] }

/-- Sets the refused mark, which is never cleared (R169). -/
def State.markRefused (s : State) (r : Refusal) : State :=
  if s.refused.isSome then s else { s with refused := some r }

/-- The state a step leaves: the next state, or the state before it with the fault recorded or the refusal marked (R160, R169). -/
def State.settle (s : State) : Host.Outcome State Fault Refusal → State
  | .next t => t
  | .fault f => s.recordFault f
  | .refused r => s.markRefused r

/-- `InvalidOpcode` where `CAP_SSE4A` is false (R161). -/
def State.missingSse4a (s : State) (i : Instr) : Option Fault :=
  if s.platform.capSse4a then none else some (.invalidOpcode s.cur.id s.cur.pc i.op (encode i))

/-- `InvalidOpcode` where `CAP_FENCE` is false (R161). -/
def State.missingFence (s : State) (i : Instr) : Option Fault :=
  if s.platform.capFence then none else some (.invalidOpcode s.cur.id s.cur.pc i.op (encode i))

/-- `UnwrittenRead` where the lane's mark is clear (R26, R167). -/
def State.unwritten (s : State) (i : XReg) (l : LaneNo) : Option Fault :=
  if (s.lane i l).written then none else some (.unwrittenRead s.cur.id s.cur.pc i l)

/-- `BitfieldRange` where the descriptor is not valid and the policy is `Fault` (R102, R162). -/
def State.badRange (s : State) (op : Op) (c : Word) : Option Fault :=
  let f := decodeDesc c
  if f.valid then none
  else
    match s.platform.bfRange with
    | .fault => some (.bitfieldRange s.cur.id s.cur.pc op f.idx f.len c)
    | .draw => none

/-- `MemoryFault` where `ValidWrite` is false (R132, R163). -/
def State.badAddress (s : State) (op : Op) (ea : Addr) (n : Nat) : Option Fault :=
  if s.cur.validWrite ea n then none else some (.memoryFault s.cur.id s.cur.pc op ea n)

/-- `Misaligned` where the address is no multiple of `n` and the policy is `Fault` (R43, R132, R164). -/
def State.badAlignment (s : State) (op : Op) (ea : Addr) (n : Nat) : Option Fault :=
  if ea.toNat % n = 0 then none
  else
    match s.platform.misalignedNt with
    | .fault => some (.misaligned s.cur.id s.cur.pc op ea n)
    | .perform => none

/-- `UnfencedAccess` where a byte of the access is in `AllPending` (R50, R165). -/
def State.unfenced (s : State) (access : Access) (addr : Addr) (n : Nat) : Option Fault :=
  (s.ownerOf (byteAddrs s.mode addr n)).map fun owner => .unfencedAccess s.cur.id s.cur.pc access addr n owner

/-! ### The launch -/

/-- An operand register whose lanes are marked written at the values they hold. -/
def XEntry.marked (e : XEntry) : XEntry where
  lane0 := { val := e.lane0.val, written := true }
  lane1 := { val := e.lane1.val, written := true }
  upper := e.upper

/-- The registers with every lane marked written at the value it holds (R191). -/
def Thread.marked (t : Thread) : Thread :=
  { t with x := { toArray := (t.x.toArray.toList.map XEntry.marked).toArray, size_toArray := by simp } }

/-- A launch state (R191) made from `s`: `bytes` stand at the pc, every lane of the issuing thread has the value it
holds in `s`, no store is pending and no fault is recorded. DESIGN CHOICE (log 10): the refused mark is clear, although R191
does not list it and R169 says that it is never cleared, since a launch starts a run of its own and is no step; the issuing thread has not ended, its store buffer and the agenda are empty, and its fetch sees `bytes`
too. -/
def State.launch (s : State) (bytes : List Byte) : State :=
  { s with
    cur := { s.cur.marked with
      nt := []
      storeBuf := []
      imem := s.cur.imem.writeBytes s.mode s.cur.pc bytes
      ended := false }
    others := s.others.map fun t => { t with nt := [] }
    mem := s.mem.writeBytes s.mode s.cur.pc bytes
    faults := []
    refused := none
    agenda := [] }

end Sys2Proof.Machine
end

