-- ==== Sys2Proof/Machine/BitField.lean ====
section
/-! DEFINITION. EXTRQ and INSERTQ (40_bitfield.md). -/

namespace Sys2Proof.Machine

/-- The lane-0 result (R100, R102, R110): the codec's value on a valid descriptor; a draw on any other, which only the
policy `Draw` lets through. -/
def State.fieldResult (s : State) (c : Word) (f : Nat → Nat → Word) : Word × State :=
  let d := decodeDesc c
  if d.valid then (f d.len d.idx, s) else s.draw64

/-- The end of a bit-field instruction: lane 1 is a draw (R103), both lanes are written (R26), the pc advances (R22). -/
def State.finishField (r : Word × State) (i : Instr) (d : XReg) : State :=
  let h := r.2.draw64
  (h.2.setX d h.1 r.1).advance i.length

/-- What both bit-field instructions do: check the capability, the lanes read in the rule's order, and the range
(R170); then compute lane 0 with `f` of the length and the index. -/
def State.bitField (s : State) (i : Instr) (d : XReg) (reads : List (XReg × LaneNo)) (c : Word)
    (f : Nat → Nat → Word) : Host.Outcome State Fault Refusal :=
  s.complete (s.missingSse4a i :: (reads.map fun r => s.unwritten r.1 r.2) ++ [s.badRange i.op c])
    (State.finishField (s.fieldResult c f) i d)

/-- EXTRQ (R100): data in lane 0 of `X[d]`, descriptor in lane 0 of `X[y]`; all reads come before the write (R104). -/
def execExtrq (rex : Bool) (d y : XReg) (s : State) : Host.Outcome State Fault Refusal :=
  s.bitField (.extrq rex d y) d [(d, .lane0), (y, .lane0)] (s.lane y .lane0).val
    (extractField (s.lane d .lane0).val)

/-- INSERTQ (R110): destination in lane 0 of `X[d]`, field bits in lane 0 and descriptor in lane 1 of `X[y]` (R73). -/
def execInsertq (rex : Bool) (d y : XReg) (s : State) : Host.Outcome State Fault Refusal :=
  s.bitField (.insertq rex d y) d [(d, .lane0), (y, .lane0), (y, .lane1)] (s.lane y .lane1).val
    (insertField (s.lane d .lane0).val (s.lane y .lane0).val)

end Sys2Proof.Machine
end

