-- ==== Sys2Proof/Machine/Fence.lean ====
section
/-! DEFINITION. SFENCE (42_store_fence.md). -/

namespace Sys2Proof.Machine

/-- `StoreBarrier` (R152): the thread's ordinary stores are all visible before the fence completes. -/
def State.storeBarrier (s : State) : State :=
  { s with mem := drainStores s.mode s.mem s.cur.storeBuf, cur := { s.cur with storeBuf := [] } }

/-- Commits every entry of the issuing thread in list order, each as one event, and empties `NTBuf` (R46, R151). -/
def State.commitPending (s : State) : State :=
  { s with
    mem := commitEntries s.mode s.mem s.cur.nt
    events := s.events ++ s.cur.nt.map fun e => .ntCommit s.cur.id e.addr e.n e.bytes
    cur := { s.cur with nt := [] } }

/-- SFENCE (R151). A buffered ordinary store to a pending byte is older than the entry (R50), so the buffer drains
first; where no byte is shared the order cannot be seen (log 13). -/
def execSfence (s : State) : Host.Outcome State Fault Refusal :=
  s.complete [s.missingFence .sfence]
    ((s.storeBarrier.commitPending.record (.fence s.cur.id)).advance Instr.sfence.length)

end Sys2Proof.Machine
end

