-- ==== Sys2Proof/Machine/StreamStore.lean ====
section
/-! DEFINITION. MOVNTSD and MOVNTSS (41_streaming_store.md). -/

namespace Sys2Proof.Machine

/-- Appends a pending entry to the issuing thread's `NTBuf` and records the event (R132). -/
def State.appendEntry (s : State) (e : NTEntry) : State :=
  ({ s with cur := { s.cur with nt := s.cur.nt ++ [e] } }).record (.ntIssue s.cur.id e.addr e.n e.bytes)

/-- The entry of a store of the low `8n` bits of `v` at `ea`, little-endian (R132, R41). -/
def storeEntry (ea : Addr) (n : Nat) (v : Word) : NTEntry := { addr := ea, n := n, bytes := littleEndian n v }

/-- What both streaming stores do (R132, R133, R138): check the capability, the lane read, the address, the alignment
and the pending bytes, in that order (R170); then append the entry and advance the pc. -/
def State.streamStore (s : State) (i : Instr) (n : Nat) (b : GReg) (disp : Disp) (y : XReg) :
    Host.Outcome State Fault Refusal :=
  let ea := s.effectiveAddress b disp
  s.complete
    [s.missingSse4a i, s.unwritten y .lane0, s.badAddress i.op ea n, s.badAlignment i.op ea n,
      s.unfenced (.streamingStore i.op) ea n]
    ((s.appendEntry (storeEntry ea n (s.lane y .lane0).val)).advance i.length)

/-- MOVNTSD (R133): all of lane 0. -/
def execMovntsd (rex : Bool) (b : GReg) (disp : Disp) (y : XReg) (s : State) : Host.Outcome State Fault Refusal :=
  s.streamStore (.movntsd rex b disp y) 8 b disp y

/-- MOVNTSS (R138): bits `[31:0]` of lane 0. -/
def execMovntss (rex : Bool) (b : GReg) (disp : Disp) (y : XReg) (s : State) : Host.Outcome State Fault Refusal :=
  s.streamStore (.movntss rex b disp y) 4 b disp y

end Sys2Proof.Machine
end

