-- ==== Sys2Proof/Machine/Dispatch.lean ====
section
/-! DEFINITION. One arm per instruction: each is one call of its meaning. -/

namespace Sys2Proof.Machine

def exec (i : Instr) (s : State) : Host.Outcome State Fault Refusal :=
  match i with
  | .extrq rex d y => Sys2Proof.Machine.execExtrq rex d y s
  | .insertq rex d y => Sys2Proof.Machine.execInsertq rex d y s
  | .movntsd rex b disp y => Sys2Proof.Machine.execMovntsd rex b disp y s
  | .movntss rex b disp y => Sys2Proof.Machine.execMovntss rex b disp y s
  | .sfence => Sys2Proof.Machine.execSfence s

end Sys2Proof.Machine
end

