-- ==== Sys2Proof/Machine/Fetch.lean ====
section
/-! DEFINITION. The host's instruction fetch, as far as the spec gives it (20_memory.md R44, R50, R57; 30_encoding.md R83, R84). -/

namespace Sys2Proof.Machine

/-- What instruction fetch sees (R57). -/
def State.fetchView (s : State) : Memory :=
  match s.platform.fetchCoherence with
  | .coherent => s.mem
  | .deferred => s.cur.imem

/-- The bytes from `a` on, in increasing address order (R41), at most `k`, up to the first that is pending, and the fault there
(R50). -/
def State.fetchBytes (s : State) : Nat → Addr → List Byte × Option Fault
  | 0, _ => ([], none)
  | k + 1, a =>
    match s.unfenced .fetch a 1 with
    | none =>
      let r := State.fetchBytes s k (wrap s.mode (a + 1))
      (s.fetchView.read a.toNat :: r.1, r.2)
    | some f => ([], some f)

/-- What the fetch at the pc gives: an instruction, or how the step ends without one. -/
inductive Fetched where
  | instr (i : Instr)
  | stop (o : Host.Outcome State Fault Refusal)

/-- Fetch and decode at the pc. The fetch touches the bytes the decoder examines and no other: a
pending byte stops the step only where the decoder runs out of bytes before it (log 15). -/
def State.fetch (s : State) : Fetched :=
  let r := s.fetchBytes maxLength (wrap s.mode s.cur.pc)
  match decode s.mode r.1 with
  | .ok i => .instr i
  | .illegal op n => .stop (s.raise (.invalidOpcode s.cur.id s.cur.pc op (r.1.take n)))
  | .refused .truncated =>
    match r.2 with
    | some f => .stop (s.raise f)
    | none => .stop (.refused (.encoding .truncated))
  | .refused q => .stop (.refused (.encoding q))

end Sys2Proof.Machine
end

