-- ==== Sys2Proof/Machine/HostAction.lean ====
section
/-! DEFINITION. What the host does between two instructions of the block (20_memory.md R50 to R57; log 12). -/

namespace Sys2Proof.Machine

/-- Memory as the issuing thread's own loads see it: its buffered ordinary stores lie over it (log 13). -/
def State.loadView (s : State) : Memory := drainStores s.mode s.mem s.cur.storeBuf

/-- The host turns to thread `a` (R6, R178). -/
def hostSwitch (a : Nat) (s : State) : Host.Outcome State Fault Refusal :=
  if s.cur.id = a then .next s
  else
    match s.others.find? fun t => t.id == a with
    | some t => .next { s with cur := t, others := s.cur :: s.others.eraseP fun t => t.id == a }
    | none => .refused (.noSuchThread a)

/-- An ordinary load (R50); its value is recorded as an event. -/
def hostLoad (addr : Addr) (n : Nat) (s : State) : Host.Outcome State Fault Refusal :=
  s.complete [s.unfenced .ordinaryLoad addr n]
    (s.record (.load s.cur.id addr (s.loadView.readAll (byteAddrs s.mode addr n))))

/-- An ordinary store (R50): into memory, or into the thread's store buffer, as `OrdinaryMM` says (R53). -/
def hostStore (addr : Addr) (bytes : List Byte) (s : State) : Host.Outcome State Fault Refusal :=
  let t := s.record (.store s.cur.id addr bytes)
  s.complete [s.unfenced .ordinaryStore addr bytes.length]
    (match s.platform.ordinaryMM with
      | .sequential => { t with mem := t.mem.writeBytes s.mode addr bytes }
      | .storeBuffered =>
        { t with cur := { t.cur with storeBuf := t.cur.storeBuf ++ [{ addr := addr, bytes := bytes }] } })

/-- The oldest buffered ordinary store of thread `a` becomes visible; nothing happens where there is none (log 13). -/
def hostDrain (a : Nat) (s : State) : Host.Outcome State Fault Refusal :=
  match s.findThread a with
  | none => .refused (.noSuchThread a)
  | some t =>
    match t.storeBuf with
    | [] => .next s
    | e :: rest =>
      .next ({ s with mem := s.mem.writeBytes s.mode e.addr e.bytes }.modifyThread a
        fun t => { t with storeBuf := rest })

/-- Copies the bytes at the addresses from `src` into `dst`. -/
def copyBytes (src : Memory) : Memory → List Addr → Memory
  | dst, [] => dst
  | dst, a :: as => copyBytes src (dst.write a.toNat (src.read a.toNat)) as

/-- Committed bytes become visible to the issuing thread's instruction fetch (R57, R197). DESIGN CHOICE (log 14): R50 does not say
whether this turn is an access; the model holds that it is none, so it raises no `UnfencedAccess`, and at an address in `AllPending`
it copies the byte that memory holds before the commit. -/
def hostSyncFetch (addr : Addr) (n : Nat) (s : State) : Host.Outcome State Fault Refusal :=
  .next { s with cur := { s.cur with imem := copyBytes s.mem s.cur.imem (byteAddrs s.mode addr n) } }

/-- The host writes an operand register; every write sets both marks (R26, R192). -/
def hostWriteX (i : XReg) (v : BitVec 128) (s : State) : Host.Outcome State Fault Refusal :=
  .next (s.setX i (v.extractLsb' 64 64) (v.extractLsb' 0 64))

/-- The host writes a general register of the mode's width (R20). -/
def hostWriteG (r : GReg) (v : Word) (s : State) : Host.Outcome State Fault Refusal :=
  .next { s with cur := { s.cur with g := s.cur.g.set r.val (wrap s.mode v) r.isLt } }

/-- The host's own code transfers control (R21, R22). DESIGN CHOICE (log 22): wherever it goes, this is no return of control
outside the program in the sense of R56 and R166, and it checks nothing. -/
def hostJump (pc : Addr) (s : State) : Host.Outcome State Fault Refusal :=
  .next { s with cur := { s.cur with pc := wrap s.mode pc } }

/-- The thread ends its run, or returns control outside the program (R56): a fault where it has pending entries (R166). DESIGN
CHOICE (log 22): one turn stands for both, and after either the thread issues no further instruction. DESIGN CHOICE (log 29): ordinary stores that
still wait in its store buffer are no hindrance, and stay there until they drain. -/
def hostEndRun (s : State) : Host.Outcome State Fault Refusal :=
  s.complete [if s.cur.nt = [] then none else some (.unfencedAtEnd s.cur.id s.cur.pc s.cur.nt)]
    { s with cur := { s.cur with ended := true } }

/-- The host reads memory (R50, R165); the bytes read are recorded as an event. DESIGN CHOICE (log 29): it reads memory alone, and
sees no ordinary store that still waits in a store buffer. DESIGN CHOICE (log 30): where it meets a pending byte, the entry of R160
names the thread that is current at this turn and its pc, although the host is an agent of its own. -/
def hostRead (addr : Addr) (n : Nat) (s : State) : Host.Outcome State Fault Refusal :=
  s.complete [s.unfenced .hostRead addr n] (s.record (.read addr (s.mem.readAll (byteAddrs s.mode addr n))))

/-- One action of the host. A thread that has ended its run may still do these: they are the host's own code (log 22). -/
def hostAct (act : HostAct) (s : State) : Host.Outcome State Fault Refusal :=
  match act with
  | .switch a         => hostSwitch a s
  | .load addr n      => hostLoad addr n s
  | .store addr bytes => hostStore addr bytes s
  | .drain a          => hostDrain a s
  | .syncFetch addr n => hostSyncFetch addr n s
  | .writeX i v       => hostWriteX i v s
  | .writeG r v       => hostWriteG r v s
  | .jump pc          => hostJump pc s
  | .endRun           => hostEndRun s
  | .read addr n      => hostRead addr n s

end Sys2Proof.Machine
end

