-- ==== Sys2Proof/Machine/Step.lean ====
section
/-! DEFINITION. One step of the machine (00_scope.md R6, R14), and the launch of one instruction for the host's questions. -/

namespace Sys2Proof.Machine

/-- The issuing thread fetches its next instruction and executes it: one atomic step (R6). A thread that has ended its
run has no further instruction, and its turn passes (R56, log 22). -/
def issue (s : State) : Host.Outcome State Fault Refusal :=
  if s.cur.ended then .next s
  else
    match s.fetch with
    | .instr i => exec i s
    | .stop o => o

/-- One step. A machine that has refused or faulted stops there (R169, R172, log 9); else the next turn of the agenda is
taken, and where there is none the issuing thread runs its next instruction (log 12). -/
def step (s : State) : Host.Outcome State Fault Refusal :=
  match s.refused, s.faults, s.agenda with
  | some r, _, _ => .refused r
  | none, f :: _, _ => s.raise f
  | none, [], [] => issue s
  | none, [], .issue :: rest => issue { s with agenda := rest }
  | none, [], .host act :: rest => hostAct act { s with agenda := rest }

/-- The state a step leaves, with a fault recorded or a refusal marked (R160, R169). -/
def afterStep (s : State) : State := s.settle (step s)

/-- The launch state (R191) whose next step fetches the instruction that spec/opcode_table.json numbers `w` (logs 10, 17). -/
def State.withFetchWord (s : State) (nbits w : Nat) : State := s.launch (tableBytes nbits w)

end Sys2Proof.Machine
end

