-- ==== Sys2Proof/Machine/FaultTable.lean ====
section
/-! DEFINITION. The summary table of faults (60_exceptions.md R160, R168). -/

namespace Sys2Proof.Machine

/-- The classes of R160. -/
inductive FaultClass where
  | trap
  | contract
  | model
  deriving DecidableEq, Repr

/-- The model codes of R168. -/
def Fault.code : Fault → Nat
  | .invalidOpcode ..   => 1
  | .memoryFault ..     => 2
  | .bitfieldRange ..   => 3
  | .misaligned ..      => 4
  | .unfencedAccess ..  => 5
  | .unfencedAtEnd ..   => 6
  | .unwrittenRead ..   => 7

/-- The class of a fault (R160, R168). -/
def Fault.cls : Fault → FaultClass
  | .invalidOpcode ..   => .trap
  | .memoryFault ..     => .trap
  | .bitfieldRange ..   => .contract
  | .misaligned ..      => .contract
  | .unfencedAccess ..  => .contract
  | .unfencedAtEnd ..   => .contract
  | .unwrittenRead ..   => .model

/-- The x86 vectors a fault may be on hardware (R168): #UD; #GP or #PF; none for the contract and model faults. -/
def Fault.x86Vectors : Fault → List Nat
  | .invalidOpcode ..   => [6]
  | .memoryFault ..     => [13, 14]
  | .bitfieldRange ..   => []
  | .misaligned ..      => []
  | .unfencedAccess ..  => []
  | .unfencedAtEnd ..   => []
  | .unwrittenRead ..   => []

/-- The thread of the entry (R160). -/
def Fault.thread : Fault → Nat
  | .invalidOpcode a .. | .memoryFault a .. | .bitfieldRange a .. | .misaligned a .. | .unfencedAccess a ..
  | .unfencedAtEnd a .. | .unwrittenRead a .. => a

/-- The pc of the entry (R160). -/
def Fault.pc : Fault → Addr
  | .invalidOpcode _ p .. | .memoryFault _ p .. | .bitfieldRange _ p .. | .misaligned _ p .. | .unfencedAccess _ p ..
  | .unfencedAtEnd _ p .. | .unwrittenRead _ p .. => p

end Sys2Proof.Machine
end

