-- ==== Sys2Proof/Safety.lean ====
section
/-! DEFINITION. What counts as a final state, a launch state and a legal state, in the terms the claims use. -/

namespace Sys2Proof.Machine

/-- A final state: every `NTBuf` is empty, the fault record is empty and nothing was refused (20_memory.md R56, R30, R169).
DESIGN CHOICE (log 29): ordinary stores may still wait in store buffers. -/
abbrev State.final (s : State) : Prop :=
  (∀ t ∈ s.threads, t.nt = []) ∧ s.faults = [] ∧ s.refused = none

/-- What 70_reset_and_hazards.md R191 asks of a launch state, for a launch that gives the lanes `given` (thread, register,
lane) a value. -/
abbrev State.launchState (s : State) (given : Nat → XReg → LaneNo → Bool) : Prop :=
  (∀ t ∈ s.threads, t.nt = []) ∧ s.faults = [] ∧
    ∀ t ∈ s.threads, ∀ i l, ((t.x.get i).lane l).written = given t.id i l

/-- A pending entry as R27 and R132 leave it: 4 or 8 bytes, an address of the mode's width that is aligned where the policy
asks for it, and a store that was permitted when it was issued. -/
abbrev NTEntry.legal (p : Platform) (t : Thread) (e : NTEntry) : Prop :=
  (e.n = 4 ∨ e.n = 8) ∧ e.bytes.length = e.n ∧ wrap p.mode e.addr = e.addr ∧
    (p.misalignedNt = .fault → e.addr.toNat % e.n = 0) ∧ t.validWrite e.addr e.n = true

/-- A thread whose pc and general registers have the mode's width (R20, R21), whose fetch view is in canonical form and whose
pending entries are legal. -/
abbrev Thread.legal (p : Platform) (t : Thread) : Prop :=
  wrap p.mode t.pc = t.pc ∧ (∀ r : GReg, wrap p.mode (t.g.get r) = t.g.get r) ∧ t.imem.wf ∧ ∀ e ∈ t.nt, e.legal p t

/-- The invariant of the machine: memory in canonical form, threads legal and with identities of their own, the fault record a
set, and no byte pending twice (R132, R151). -/
abbrev State.legal (s : State) : Prop :=
  s.mem.wf ∧ (∀ t ∈ s.threads, t.legal s.platform) ∧ (s.threads.map Thread.id).Nodup ∧ s.faults.Nodup ∧
    s.allPending.Nodup

/-- The machine is running: nothing was refused and no fault is recorded. -/
abbrev State.running (s : State) : Prop := s.refused = none ∧ s.faults = []

/-- `NTBuf[a]` (R27): the pending entries of the thread with identity `a`, wherever it stands. -/
def State.ntOf (s : State) (a : Nat) : List NTEntry := ((s.findThread a).map Thread.nt).getD []

end Sys2Proof.Machine
end

