-- ==== Sys2Proof/Certificates/Slice0/Obligations.lean ====
section
/-! DEFINITION. The statements for the provers, each from the numbered rules of spec/ that its docstring names. -/

namespace Sys2Proof.Claims

open Sys2Proof.Machine

/-- The address of byte `k` of the instruction at the pc. -/
abbrev pcByte (s : State) (k : Nat) : Addr := wrap s.mode (s.cur.pc + BitVec.ofNat 64 k)

/-- The first `n` of the bytes `bs` stand at the pc where the fetch sees them, and none of them is pending. -/
abbrev standAtPc (s : State) (bs : List Byte) (n : Nat) : Prop :=
  ∀ k < n, pcByte s k ∉ s.allPending ∧ some (s.fetchView.read (pcByte s k).toNat) = bs[k]?

/-- The issuing thread takes its next turn: the machine is running and the agenda asks for nothing else. -/
abbrev readyToIssue (s : State) : Prop := s.running ∧ s.cur.ended = false ∧ s.agenda = []

/-- The raw length field of a descriptor (R70). -/
abbrev rawLen (c : Word) : Nat := (c.extractLsb' 0 6).toNat

/-- The raw index field of a descriptor (R70). -/
abbrev rawIdx (c : Word) : Nat := (c.extractLsb' 8 6).toNat

/-- The two cases in which a descriptor breaks the range (R102). -/
abbrev breaksRange (c : Word) : Prop := (rawLen c ≠ 0 ∧ 64 < rawIdx c + rawLen c) ∨ (rawLen c = 0 ∧ 0 < rawIdx c)

/-- The REX bytes that may stand in an instruction: none, or one of the four in `Long64` (R78). -/
abbrev rexChoices (m : Mode) : List (List Byte) :=
  if m = .long64 then [[], [0x40], [0x41], [0x44], [0x45]] else [[]]

/-- The mandatory prefixes (R75). -/
abbrev mandatoryPrefixes : List Byte := [0x66, 0xF2, 0xF3]

/-- The other prefixes that R84 lists. -/
abbrev refusedPrefixes : List Byte := [0x67, 0x26, 0x2E, 0x36, 0x3E, 0x64, 0x65, 0xF0]

/-- The bytes that open a VEX or EVEX form. PRESUMED (log 18). -/
abbrev vexBytes : List Byte := [0xC4, 0xC5, 0x62]

/-- A byte that is neither the escape byte, nor REX, nor a prefix, nor the opening of a VEX or EVEX form. -/
abbrev isPlain (b : Byte) : Prop := b ≠ 0x0F ∧ isRex b = false ∧ b ∉ mandatoryPrefixes ∧ b ∉ refusedPrefixes ∧ b ∉ vexBytes

/-- A thread that holds one of the bytes of an access (R132). -/
abbrev holdsByteOf (s : State) (owner : Nat) (addr : Addr) (n : Nat) : Prop :=
  ∃ t ∈ s.threads, t.id = owner ∧ ∃ a ∈ byteAddrs s.mode addr n, a ∈ t.pendingBytes s.mode

/-- The bytes of an access meet `AllPending` (R50). -/
abbrev meetsPending (s : State) (addr : Addr) (n : Nat) : Prop := ∃ a ∈ byteAddrs s.mode addr n, a ∈ s.allPending

/-- The two streaming stores with their widths (R133, R138). -/
abbrev isStore (i : Instr) (n : Nat) (rex : Bool) (b : GReg) (disp : Disp) (y : XReg) : Prop :=
  (i = .movntsd rex b disp y ∧ n = 8) ∨ (i = .movntss rex b disp y ∧ n = 4)

/-- The state with other general registers in the issuing thread. -/
abbrev withG (s : State) (g : Vector Word 16) : State := { s with cur := { s.cur with g := g } }

/-- An outcome with its next state changed. -/
abbrev mapNext (f : State → State) : Host.Outcome State Fault Refusal → Host.Outcome State Fault Refusal
  | .next t => .next (f t)
  | .fault e => .fault e
  | .refused r => .refused r

/-- The state with another value in lane 0 of a register of the issuing thread. -/
abbrev withLane0 (s : State) (i : XReg) (v : Word) : State :=
  { s with cur := { s.cur with
      x := s.cur.x.set i.val { s.cur.x.get i with lane0 := { (s.cur.x.get i).lane0 with val := v } } i.isLt } }

/-- The state with another value in lane 1 of a register of the issuing thread. -/
abbrev withLane1 (s : State) (i : XReg) (v : Word) : State :=
  { s with cur := { s.cur with
      x := s.cur.x.set i.val { s.cur.x.get i with lane1 := { (s.cur.x.get i).lane1 with val := v } } i.isLt } }

/-- The two bit-field instructions with the word each takes its descriptor from (R73). -/
abbrev isField (s : State) (i : Instr) (c : Word) (rex : Bool) (d y : XReg) : Prop :=
  (i = .extrq rex d y ∧ c = (s.lane y .lane0).val) ∨ (i = .insertq rex d y ∧ c = (s.lane y .lane1).val)

end Sys2Proof.Claims

open Sys2Proof Sys2Proof.Machine Sys2Proof.Claims

/-! ### Encoding -/

/-- Decoding the bytes of a well-formed instruction, whatever follows them, gives the instruction (R75 to R80, R82). -/
def Obligations.DecodeOfEncode : Prop :=
  ∀ (m : Mode) (i : Instr) (tail : List Byte), i.wellFormed m = true → decode m (encode i ++ tail) = .ok i

/-- Every byte string the decoder admits begins with the encoding of the well-formed instruction it gives (R75 to R80, R84). -/
def Obligations.DecodeOnlyEncodings : Prop :=
  ∀ (m : Mode) (bs : List Byte) (i : Instr),
    decode m bs = .ok i → i.wellFormed m = true ∧ bs.take i.length = encode i

/-- A verdict on a byte string does not depend on bytes after it (R86). -/
def Obligations.DecodeVerdictStable : Prop :=
  ∀ (m : Mode) (bs tail : List Byte),
    decode m bs ≠ .refused .truncated → decode m (bs ++ tail) = decode m bs

/-- Nine bytes are enough for a verdict (R84, R86). -/
def Obligations.NineBytesGiveAVerdict : Prop :=
  ∀ (m : Mode) (bs : List Byte), maxLength ≤ bs.length → decode m bs ≠ .refused .truncated

/-- Vectors X1 to X9, and the displacement and length they give (R82, R86). A sanity statement. -/
def Obligations.WordsOfTheSpecDecode : Prop :=
  decode .legacy32 [0x66, 0x0F, 0x79, 0xC2] = .ok (.extrq false 0 2) ∧
  decode .legacy32 [0xF2, 0x0F, 0x79, 0xC1] = .ok (.insertq false 0 1) ∧
  decode .long64 [0x66, 0x45, 0x0F, 0x79, 0xC1] = .ok (.extrq true 8 9) ∧
  decode .long64 [0xF2, 0x44, 0x0F, 0x79, 0xC7] = .ok (.insertq true 8 7) ∧
  decode .legacy32 [0xF3, 0x0F, 0x2B, 0x4F, 0x04] = .ok (.movntss false 7 (.d8 4) 1) ∧
  decode .long64 [0xF2, 0x45, 0x0F, 0x2B, 0x80, 0x00, 0x01, 0x00, 0x00] = .ok (.movntsd true 8 (.d32 0x100) 8) ∧
  decode .long64 [0x0F, 0xAE, 0xF8] = .ok .sfence

/-- The encodings that R84 refuses, each by its name, whatever bytes follow: behind a mandatory prefix and an optional REX, the
immediate forms, the SIB and the RIP-relative or absolute ModRM bytes, and every other opcode; REX bytes in the wrong mode, place
or form; every other byte behind a mandatory prefix; and every other first byte. The names, and which of them is given where
several apply, are the model's choice (log 18). -/
def Obligations.RefusedEncodings : Prop :=
  ∀ (tail : List Byte) (b modrm : Byte) (m : Mode),
    (∀ p ∈ mandatoryPrefixes, ∀ rx ∈ rexChoices m,
      (p = 0xF2 → decode m (p :: (rx ++ 0x0F :: 0x78 :: tail)) = .refused .immediateForm) ∧
      (p = 0x66 → decode m (p :: (rx ++ 0x0F :: 0x78 :: modrm :: tail)) =
        .refused (if regField modrm = 0 then .immediateForm else .otherOpcode)) ∧
      (p ≠ 0x66 → modField modrm ≠ 3 → rmField modrm = 4 →
        decode m (p :: (rx ++ 0x0F :: 0x2B :: modrm :: tail)) = .refused .sib) ∧
      (p ≠ 0x66 → modField modrm = 0 → rmField modrm = 5 →
        decode m (p :: (rx ++ 0x0F :: 0x2B :: modrm :: tail)) = .refused .ripRelative) ∧
      (p = 0xF3 → (b = 0x79 ∨ b = 0x78) → decode m (p :: (rx ++ 0x0F :: b :: tail)) = .refused .otherOpcode) ∧
      (p = 0x66 → decode m (p :: (rx ++ 0x0F :: 0x2B :: tail)) = .refused .otherOpcode) ∧
      (b ≠ 0x79 → b ≠ 0x2B → b ≠ 0x78 → decode m (p :: (rx ++ 0x0F :: b :: tail)) = .refused .otherOpcode)) ∧
    (∀ p ∈ mandatoryPrefixes,
      (isRex b = true →
        decode .legacy32 (p :: b :: tail) = .refused .rexInLegacy32 ∧
        ((b.getLsbD 3 || b.getLsbD 1) = true → decode .long64 (p :: b :: tail) = .refused .rexWX) ∧
        ((b.getLsbD 3 || b.getLsbD 1) = false → modrm ≠ 0x0F →
          decode .long64 (p :: b :: modrm :: tail) = .refused .rexMisplaced)) ∧
      (b ∈ mandatoryPrefixes ++ refusedPrefixes → decode m (p :: b :: tail) = .refused .otherPrefix) ∧
      (b ∈ vexBytes → decode m (p :: b :: tail) = .refused .vexEvex) ∧
      (isPlain b → decode m (p :: b :: tail) = .refused .otherOpcode)) ∧
    (isRex b = true → decode .long64 (b :: tail) = .refused .rexMisplaced ∧
      decode .legacy32 (b :: tail) = .refused .rexInLegacy32) ∧
    (b ∈ refusedPrefixes → decode m (b :: tail) = .refused .otherPrefix) ∧
    (b ∈ vexBytes → decode m (b :: tail) = .refused .vexEvex) ∧
    (isPlain b → decode m (b :: tail) = .refused .otherOpcode) ∧
    (0xF9 ≤ modrm → decode m (0x0F :: 0xAE :: modrm :: tail) = .refused .fenceModrm) ∧
    (modrm < 0xF8 → decode m (0x0F :: 0xAE :: modrm :: tail) = .refused .otherOpcode) ∧
    (b ≠ 0xAE → decode m (0x0F :: b :: tail) = .refused .otherOpcode)

/-- In `Legacy32` a decoded instruction names only the eight registers of each file, and no REX byte (R7, R20, R25, R78). -/
def Obligations.LegacyRegistersBelowEight : Prop :=
  ∀ (bs : List Byte),
    (∀ rex d y, (decode .legacy32 bs = .ok (.extrq rex d y) ∨ decode .legacy32 bs = .ok (.insertq rex d y)) →
      rex = false ∧ d.val < numXmm .legacy32 ∧ y.val < numXmm .legacy32) ∧
    (∀ rex b disp y,
      (decode .legacy32 bs = .ok (.movntsd rex b disp y) ∨ decode .legacy32 bs = .ok (.movntss rex b disp y)) →
      rex = false ∧ b.val < 8 ∧ y.val < numXmm .legacy32)

/-! ### The step -/

/-- A step runs the decoded instruction: where its bytes stand at the pc, the step is `exec` of it, at the state itself or,
where the agenda says to issue, at the state with that turn taken (R6, R29, R44, R57). The agenda is the model's choice (log 12). -/
def Obligations.StepRunsDecodedInstruction : Prop :=
  ∀ (s : State) (i : Instr) (rest : List Turn),
    s.running → s.cur.ended = false → i.wellFormed s.mode = true → standAtPc s (encode i) i.length →
      (s.agenda = [] → step s = exec i s) ∧ (s.agenda = .issue :: rest → step s = exec i { s with agenda := rest })

/-- `InvalidOpcode` is raised where the capability is absent, whatever else holds, and by the illegal ModRM forms; it
records the instruction bytes and the pc (R161). Which bytes those are is the model's deduction (log 25): the encoding of the
instruction where the capability is absent, and the bytes up to ModRM for an illegal form. -/
def Obligations.InvalidOpcodeRaised : Prop :=
  (∀ (s : State) (i : Instr), i ≠ .sfence → s.platform.capSse4a = false →
    exec i s = .fault (.invalidOpcode s.cur.id s.cur.pc i.op (encode i))) ∧
  (∀ s : State, s.platform.capFence = false →
    exec .sfence s = .fault (.invalidOpcode s.cur.id s.cur.pc .sfence [0x0F, 0xAE, 0xF8])) ∧
  (∀ (s : State) (rx : List Byte) (modrm : Byte) (bs : List Byte) (op : Op),
    readyToIssue s → rx ∈ rexChoices s.mode → standAtPc s bs bs.length →
    ((modField modrm ≠ 3 ∧ (op = .extrq ∧ bs = 0x66 :: (rx ++ [0x0F, 0x79, modrm]) ∨
        op = .insertq ∧ bs = 0xF2 :: (rx ++ [0x0F, 0x79, modrm]))) ∨
      (modField modrm = 3 ∧ (op = .movntsd ∧ bs = 0xF2 :: (rx ++ [0x0F, 0x2B, modrm]) ∨
        op = .movntss ∧ bs = 0xF3 :: (rx ++ [0x0F, 0x2B, modrm])))) →
    step s = .fault (.invalidOpcode s.cur.id s.cur.pc op bs)) ∧
  (∀ a p op bs, (Fault.invalidOpcode a p op bs).cls = .trap ∧ (Fault.invalidOpcode a p op bs).x86Vectors = [6])

/-- A refused encoding at the pc is refused by the step; the mark is set for the whole state, no later step clears it, and a
refused state is never final (R169). That `afterStep` puts the mark is the model's form (log 9). -/
def Obligations.RefusalMarkStays : Prop :=
  (∀ (s : State) (bs : List Byte) (r : Reject), readyToIssue s → r ≠ .truncated → decode s.mode bs = .refused r →
    standAtPc s bs bs.length →
      step s = .refused (.encoding r) ∧ (afterStep s).refused = some (.encoding r) ∧ (afterStep s).faults = s.faults) ∧
  (∀ s : State, s.refused ≠ none → (afterStep s).refused = s.refused ∧ ¬ s.final)

/-- A fault ends the step with no effect but its entry `(reason, thread, pc, info)` in the record: no register, memory,
`NTBuf` or pc changes (R160, R172). That `afterStep` puts the entry is the model's form (log 9), and the
thread and pc of the host's own read are its choice (log 30). -/
def Obligations.FaultChangesOnlyTheRecord : Prop :=
  ∀ (s : State) (f : Fault), s.running → step s = .fault f →
    afterStep s = { s with faults := [f] } ∧ f.thread = s.cur.id ∧ f.pc = s.cur.pc ∧ ¬ (afterStep s).final

/-- Nothing removes an entry from the fault record, and a state that has one is never final (R30). That `afterStep` gives the state a
step leaves is the model's form (log 9). -/
def Obligations.FaultRecordOnlyGrows : Prop :=
  ∀ (s : State) (f : Fault), f ∈ s.faults → f ∈ (afterStep s).faults ∧ ¬ s.final

/-- An operation that completes moves the pc by its length modulo `2^ADDR_WIDTH`; one that faults leaves it (R22). -/
def Obligations.PcMovesByTheLength : Prop :=
  ∀ (i : Instr) (s : State),
    (∀ t, exec i s = .next t → t.cur.pc.toNat = (s.cur.pc.toNat + (encode i).length) % 2 ^ addrWidth s.mode) ∧
    (∀ f, exec i s = .fault f → (s.settle (exec i s)).cur.pc = s.cur.pc)

/-! ### The descriptor and the codec -/

/-- `Mask(len)` has ones in bits `[len-1:0]` and zeros elsewhere, and `Mask(64)` is all ones (R11). -/
def Obligations.MaskOnes : Prop :=
  (∀ len k : Nat, 1 ≤ len → len ≤ 64 → k < 64 → (mask len).getLsbD k = decide (k < len)) ∧ mask 64 = BitVec.allOnes 64

/-- Which raw field pairs are valid, and that 2080 of the 4096 are (R72). -/
def Obligations.ValidDescriptors : Prop :=
  (∀ c : Word, (decodeDesc c).valid = true ↔
    (1 ≤ rawLen c ∧ rawLen c ≤ 63 ∧ rawIdx c + rawLen c ≤ 64) ∨ (rawLen c = 0 ∧ rawIdx c = 0)) ∧
  ((List.range 64).flatMap fun l => (List.range 64).map fun i => BitVec.ofNat 64 (256 * i + l)).countP
    (fun c => (decodeDesc c).valid) = 2080

/-- `Enc` writes a word that `Desc` reads back (R74). -/
def Obligations.EncodedDescriptorReadsBack : Prop :=
  (∀ idx len : Nat, idx < 64 → 1 ≤ len → len ≤ 64 →
    decodeDesc (encodeDesc idx len) = { len := len, idx := idx, valid := decide (idx + len ≤ 64) } ∧
    (encodeDesc idx len).toNat = idx * 256 + len % 64) ∧
  encodeDesc 8 4 = 0x0804 ∧ encodeDesc 0 64 = 0

/-- The bits of a descriptor outside its two fields change nothing of what EXTRQ and INSERTQ do (R70, R85). Where EXTRQ names one
register twice its descriptor is its data too, and then they are no ignored bits. -/
def Obligations.IgnoredDescriptorBits : Prop :=
  ∀ (s t : State) (rex : Bool) (d y : XReg) (c : Word),
    (y ≠ d → rawLen c = rawLen (s.lane y .lane0).val → rawIdx c = rawIdx (s.lane y .lane0).val →
      exec (.extrq rex d y) s = .next t → exec (.extrq rex d y) (withLane0 s y c) = .next (withLane0 t y c)) ∧
    (rawLen c = rawLen (s.lane y .lane1).val → rawIdx c = rawIdx (s.lane y .lane1).val →
      exec (.insertq rex d y) s = .next t →
        exec (.insertq rex d y) (withLane1 s y c) = .next (if y = d then t else withLane1 t y c))

/-- EXTRQ completes on a valid descriptor: lane 0 is the field, zero-extended; both lanes are written and the pc moves (R100, R101). -/
def Obligations.ExtrqExtractsTheField : Prop :=
  ∀ (s : State) (rex : Bool) (d y : XReg) (f : DescFields),
    s.platform.capSse4a = true → (s.lane d .lane0).written = true → (s.lane y .lane0).written = true →
    f = decodeDesc (s.lane y .lane0).val → f.valid = true →
    ∃ t, exec (.extrq rex d y) s = .next t ∧
      (∀ k < f.len, (t.lane d .lane0).val.getLsbD k = (s.lane d .lane0).val.getLsbD (f.idx + k)) ∧
      (∀ k, f.len ≤ k → k < 64 → (t.lane d .lane0).val.getLsbD k = false) ∧
      (t.lane d .lane0).written = true ∧ (t.lane d .lane1).written = true ∧
      t.cur.pc = wrap s.mode (s.cur.pc + BitVec.ofNat 64 (4 + rex.toNat))

/-- INSERTQ completes on a valid descriptor: inside the field lane 0 has the low bits of the field-bits lane, outside it is
unchanged; both lanes are written and the pc moves (R110, R111). -/
def Obligations.InsertqReplacesTheField : Prop :=
  ∀ (s : State) (rex : Bool) (d y : XReg) (f : DescFields),
    s.platform.capSse4a = true → (s.lane d .lane0).written = true → (s.lane y .lane0).written = true →
    (s.lane y .lane1).written = true → f = decodeDesc (s.lane y .lane1).val → f.valid = true →
    ∃ t, exec (.insertq rex d y) s = .next t ∧
      (∀ k < f.len, (t.lane d .lane0).val.getLsbD (f.idx + k) = (s.lane y .lane0).val.getLsbD k) ∧
      (∀ k < 64, (k < f.idx ∨ f.idx + f.len ≤ k) →
        (t.lane d .lane0).val.getLsbD k = (s.lane d .lane0).val.getLsbD k) ∧
      (t.lane d .lane0).written = true ∧ (t.lane d .lane1).written = true ∧
      t.cur.pc = wrap s.mode (s.cur.pc + BitVec.ofNat 64 (4 + rex.toNat))

/-- Lane 1 of the result is a free value that no earlier draw used, and it stays the value that later reads give (R103). That the
draws are numbered values of `Config.draw` is the model's choice (log 8). -/
def Obligations.LaneOneIsAFreshDraw : Prop :=
  ∀ (s t : State) (i : Instr) (c : Word) (rex : Bool) (d y : XReg),
    isField s i c rex d y → exec i s = .next t →
    ∃ n, s.draws ≤ n ∧ t.draws = n + 1 ∧ t.lane d .lane1 = { val := Config.draw n, written := true } ∧
      ((decodeDesc c).valid = true → n = s.draws)

/-- Under the policy `Fault` a descriptor that breaks the range raises `BitfieldRange`, with the index, the length and the raw
word; the fault is a contract fault with no x86 vector, and no register and no pc changes (R162, R102). -/
def Obligations.RangeViolationFaults : Prop :=
  (∀ (s : State) (i : Instr) (c : Word) (rex : Bool) (d y : XReg),
    isField s i c rex d y → s.platform.capSse4a = true → (s.lane d .lane0).written = true → (s.lane y .lane0).written = true →
    (i.op = .insertq → (s.lane y .lane1).written = true) → breaksRange c → s.platform.bfRange = .fault →
      exec i s = .fault (.bitfieldRange s.cur.id s.cur.pc i.op (rawIdx c) (if rawLen c = 0 then 64 else rawLen c) c) ∧
      (s.settle (exec i s)).cur = s.cur) ∧
  ∀ a p op idx len c, (Fault.bitfieldRange a p op idx len c).cls = .contract ∧ (Fault.bitfieldRange a p op idx len c).x86Vectors = []

/-- Under the policy `Draw` a descriptor that breaks the range gives a free value in all of lane 0, and the step goes on as in
the valid case (R102). That the draws are numbered values of `Config.draw` is the model's choice (log 8). -/
def Obligations.RangeViolationDraws : Prop :=
  ∀ (s : State) (i : Instr) (c : Word) (rex : Bool) (d y : XReg),
    isField s i c rex d y → s.platform.capSse4a = true → (s.lane d .lane0).written = true → (s.lane y .lane0).written = true →
    (i.op = .insertq → (s.lane y .lane1).written = true) → breaksRange c → s.platform.bfRange = .draw →
      ∃ t, exec i s = .next t ∧ t.lane d .lane0 = { val := Config.draw s.draws, written := true } ∧
        t.lane d .lane1 = { val := Config.draw (s.draws + 1), written := true } ∧ t.draws = s.draws + 2 ∧
        t.cur.pc = wrap s.mode (s.cur.pc + BitVec.ofNat 64 (4 + rex.toNat))

/-- Where both operands are one register the instruction is defined, and every read sees the value from before it (R104). -/
def Obligations.SameRegisterReadsOldValues : Prop :=
  ∀ (s : State) (rex : Bool) (d : XReg), s.platform.capSse4a = true → (s.lane d .lane0).written = true →
    ((decodeDesc (s.lane d .lane0).val).valid = true →
      ∃ t, exec (.extrq rex d d) s = .next t ∧ ∀ k < 64, (t.lane d .lane0).val.getLsbD k =
        (decide (k < (decodeDesc (s.lane d .lane0).val).len) &&
          (s.lane d .lane0).val.getLsbD ((decodeDesc (s.lane d .lane0).val).idx + k))) ∧
    ((s.lane d .lane1).written = true → (decodeDesc (s.lane d .lane1).val).valid = true →
      ∃ t, exec (.insertq rex d d) s = .next t ∧ ∀ k < 64, (t.lane d .lane0).val.getLsbD k =
        if (decodeDesc (s.lane d .lane1).val).idx ≤ k ∧
            k < (decodeDesc (s.lane d .lane1).val).idx + (decodeDesc (s.lane d .lane1).val).len
        then (s.lane d .lane0).val.getLsbD (k - (decodeDesc (s.lane d .lane1).val).idx)
        else (s.lane d .lane0).val.getLsbD k)

/-- An instruction that reads a lane whose mark is clear raises `UnwrittenRead` for the first such lane in its rule's
order, whatever its descriptor or its address (R167, R170). -/
def Obligations.UnwrittenLaneFaults : Prop :=
  ∀ (s : State) (rex : Bool) (d y : XReg) (b : GReg) (disp : Disp), s.platform.capSse4a = true →
    (∀ i : Instr, i = .extrq rex d y ∨ i = .insertq rex d y →
      ((s.lane d .lane0).written = false → exec i s = .fault (.unwrittenRead s.cur.id s.cur.pc d .lane0)) ∧
      ((s.lane d .lane0).written = true → (s.lane y .lane0).written = false →
        exec i s = .fault (.unwrittenRead s.cur.id s.cur.pc y .lane0))) ∧
    ((s.lane d .lane0).written = true → (s.lane y .lane0).written = true → (s.lane y .lane1).written = false →
      exec (.insertq rex d y) s = .fault (.unwrittenRead s.cur.id s.cur.pc y .lane1)) ∧
    (∀ (i : Instr) (n : Nat), isStore i n rex b disp y → (s.lane y .lane0).written = false →
      exec i s = .fault (.unwrittenRead s.cur.id s.cur.pc y .lane0)) ∧
    (∀ a p r l, (Fault.unwrittenRead a p r l).cls = .model)

/-- The five laws of the codec (R122). -/
def Obligations.CodecLaws : Prop :=
  ∀ (a b c : Word) (len idx : Nat), (decodeDesc c).valid = true → len = (decodeDesc c).len → idx = (decodeDesc c).idx →
    extractField (insertField a b len idx) len idx = b &&& mask len ∧
    extractField a (decodeDesc 0).len (decodeDesc 0).idx = a ∧
    insertField (insertField a b len idx) (extractField a len idx) len idx = a ∧
    (len < 64 → extractField a len idx >>> len = 0) ∧
    insertField a b len idx &&& ~~~(mask len <<< idx) = a &&& ~~~(mask len <<< idx)

/-- Program P1: INSERTQ and then EXTRQ of the same field from the same register give back the field bits (R122, R100, R110). -/
def Obligations.InsertThenExtractGivesTheBits : Prop :=
  ∀ (s t : State) (rex rex' : Bool) (d y z : XReg), z ≠ d →
    exec (.insertq rex d y) s = .next t → (decodeDesc (s.lane y .lane1).val).valid = true →
    (s.lane z .lane0).written = true →
    rawLen (s.lane z .lane0).val = rawLen (s.lane y .lane1).val →
    rawIdx (s.lane z .lane0).val = rawIdx (s.lane y .lane1).val →
    ∃ u, exec (.extrq rex' d z) t = .next u ∧
      (u.lane d .lane0).val = (s.lane y .lane0).val &&& mask (decodeDesc (s.lane y .lane1).val).len

/-- What EXTRQ and INSERTQ leave unchanged: everything but the destination register, the pc and the model's count of draws; of the
destination, the host's bits above bit 127 (R23, R25, R40, R45). -/
def Obligations.BitFieldFrame : Prop :=
  ∀ (s t : State) (rex : Bool) (d y : XReg),
    (exec (.extrq rex d y) s = .next t ∨ exec (.insertq rex d y) s = .next t) →
    (∀ r, r ≠ d → t.cur.x.get r = s.cur.x.get r) ∧ (t.cur.x.get d).upper = (s.cur.x.get d).upper ∧
    (∀ x : Nat, t.mem.read x = s.mem.read x) ∧ t.cur.g = s.cur.g ∧ t.cur.nt = s.cur.nt ∧ t.cur.id = s.cur.id ∧
    t.cur.windows = s.cur.windows ∧ t.cur.storeBuf = s.cur.storeBuf ∧ t.cur.imem = s.cur.imem ∧
    t.cur.ended = s.cur.ended ∧ t.others = s.others ∧ t.platform = s.platform ∧ t.faults = s.faults ∧
    t.refused = s.refused ∧ t.events = s.events ∧ t.agenda = s.agenda

/-! ### Streaming stores -/

/-- The effective address is the base register plus the sign-extended displacement, modulo `2^ADDR_WIDTH` (R80). -/
def Obligations.EffectiveAddressWraps : Prop :=
  ∀ (s : State) (b : GReg),
    ((s.effectiveAddress b .none).toNat : Int) = ((s.cur.g.get b).toNat : Int) % 2 ^ addrWidth s.mode ∧
    (∀ v : BitVec 8, ((s.effectiveAddress b (.d8 v)).toNat : Int) =
      (((s.cur.g.get b).toNat : Int) + v.toInt) % 2 ^ addrWidth s.mode) ∧
    (∀ v : BitVec 32, ((s.effectiveAddress b (.d32 v)).toNat : Int) =
      (((s.cur.g.get b).toNat : Int) + v.toInt) % 2 ^ addrWidth s.mode)

/-- A streaming store completes where the capability is present, its lane is written, the address is permitted, aligned (or the
policy is `Perform`) and meets no pending byte: it appends one entry with the low bytes of the lane, the least significant
first, records the event and moves the pc (R130, R132, R133, R138). -/
def Obligations.StreamingStoreAppendsAnEntry : Prop :=
  ∀ (s : State) (i : Instr) (n : Nat) (rex : Bool) (b : GReg) (disp : Disp) (y : XReg) (ea : Addr),
    isStore i n rex b disp y → ea = s.effectiveAddress b disp →
    s.platform.capSse4a = true → (s.lane y .lane0).written = true → s.cur.validWrite ea n = true →
    (ea.toNat % n = 0 ∨ s.platform.misalignedNt = .perform) → ¬ meetsPending s ea n →
    ∃ t bytes, exec i s = .next t ∧ t.cur.nt = s.cur.nt ++ [{ addr := ea, n := n, bytes := bytes }] ∧
      bytes.length = n ∧ (∀ k < n, bytes[k]? = some ((s.lane y .lane0).val.extractLsb' (8 * k) 8)) ∧
      t.events = s.events ++ [.ntIssue s.cur.id ea n bytes] ∧
      t.cur.pc = wrap s.mode (s.cur.pc + BitVec.ofNat 64 (4 + rex.toNat + disp.length))

/-- The faults of a streaming store whose capability is present and whose lane is written: `MemoryFault` first, then `Misaligned`, then
`UnfencedAccess` with a thread that holds one of the bytes (R132, R163, R164, R170). -/
def Obligations.StreamingStoreFaultOrder : Prop :=
  (∀ (s : State) (i : Instr) (n : Nat) (rex : Bool) (b : GReg) (disp : Disp) (y : XReg) (ea : Addr),
    isStore i n rex b disp y → ea = s.effectiveAddress b disp →
    s.platform.capSse4a = true → (s.lane y .lane0).written = true →
    (s.cur.validWrite ea n = false → exec i s = .fault (.memoryFault s.cur.id s.cur.pc i.op ea n)) ∧
    (s.cur.validWrite ea n = true → ea.toNat % n ≠ 0 → s.platform.misalignedNt = .fault →
      exec i s = .fault (.misaligned s.cur.id s.cur.pc i.op ea n)) ∧
    (s.cur.validWrite ea n = true → (ea.toNat % n = 0 ∨ s.platform.misalignedNt = .perform) → meetsPending s ea n →
      ∃ owner, holdsByteOf s owner ea n ∧
        exec i s = .fault (.unfencedAccess s.cur.id s.cur.pc (.streamingStore i.op) ea n owner))) ∧
  (∀ a p op ea n, (Fault.memoryFault a p op ea n).cls = .trap ∧ (Fault.memoryFault a p op ea n).x86Vectors = [13, 14]) ∧
  ∀ a p op ea n, (Fault.misaligned a p op ea n).cls = .contract ∧ (Fault.misaligned a p op ea n).x86Vectors = []

/-- A second streaming store that meets the bytes of the first, with no fence between, faults (R50, vectors S10, S11). -/
def Obligations.OverlappingStoreNeedsAFence : Prop :=
  ∀ (s t : State) (i j : Instr) (n m : Nat) (rex rex' : Bool) (b b' : GReg) (disp disp' : Disp) (y y' : XReg),
    isStore i n rex b disp y → isStore j m rex' b' disp' y' → exec i s = .next t →
    (∃ a ∈ byteAddrs t.mode (t.effectiveAddress b' disp') m, a ∈ byteAddrs s.mode (s.effectiveAddress b disp) n) →
    ∀ u, exec j t ≠ .next u

/-- What a streaming store leaves unchanged: everything but its thread's `NTBuf`, the event record and the pc. No byte of memory
changes before the fence (R51, R134). -/
def Obligations.StreamingStoreFrame : Prop :=
  ∀ (s t : State) (i : Instr) (n : Nat) (rex : Bool) (b : GReg) (disp : Disp) (y : XReg),
    isStore i n rex b disp y → exec i s = .next t →
    (∀ x : Nat, t.mem.read x = s.mem.read x) ∧ t.cur.x = s.cur.x ∧ t.cur.g = s.cur.g ∧ t.cur.id = s.cur.id ∧
    t.cur.windows = s.cur.windows ∧ t.cur.storeBuf = s.cur.storeBuf ∧ t.cur.imem = s.cur.imem ∧
    t.cur.ended = s.cur.ended ∧ t.others = s.others ∧ t.platform = s.platform ∧ t.faults = s.faults ∧
    t.refused = s.refused ∧ t.draws = s.draws ∧ t.agenda = s.agenda

/-! ### The fence -/

/-- SFENCE completes wherever its capability is present: it empties `NTBuf`, records one commit for each entry and then the fence,
moves the pc by 3, and in a legal state every byte of every entry stands in memory (R46, R151). -/
def Obligations.SfenceCommitsEveryEntry : Prop :=
  ∀ s : State, s.platform.capFence = true →
    ∃ t, exec .sfence s = .next t ∧ t.cur.nt = [] ∧
      t.events = s.events ++ (s.cur.nt.map fun e => .ntCommit s.cur.id e.addr e.n e.bytes) ++ [.fence s.cur.id] ∧
      t.cur.pc = wrap s.mode (s.cur.pc + 3) ∧
      (s.legal → ∀ e ∈ s.cur.nt, ∀ k < e.n,
        some (t.mem.read (wrap s.mode (e.addr + BitVec.ofNat 64 k)).toNat) = e.bytes[k]?)

/-- What SFENCE leaves unchanged: the registers, every other thread with its pending entries, and every byte of memory that no
entry and no buffered ordinary store of its own thread covers (R54, R151). The store buffer is the model's choice (log 13). -/
def Obligations.SfenceFrame : Prop :=
  ∀ s t : State, exec .sfence s = .next t →
    (∀ x : Nat, (∀ e ∈ s.cur.nt, ∀ a ∈ byteAddrs s.mode e.addr e.bytes.length, a.toNat ≠ x) →
      (∀ e ∈ s.cur.storeBuf, ∀ a ∈ byteAddrs s.mode e.addr e.bytes.length, a.toNat ≠ x) →
      t.mem.read x = s.mem.read x) ∧
    t.others = s.others ∧ t.cur.x = s.cur.x ∧ t.cur.g = s.cur.g ∧ t.cur.id = s.cur.id ∧
    t.cur.windows = s.cur.windows ∧ t.cur.imem = s.cur.imem ∧ t.cur.ended = s.cur.ended ∧ t.platform = s.platform ∧
    t.faults = s.faults ∧ t.refused = s.refused ∧ t.draws = s.draws ∧ t.agenda = s.agenda

/-- The fence orders only the issuing thread's stores: another thread's entries and buffered stores stay as they are, and an access
that meets its entries still faults afterwards (R54, vector F4). -/
def Obligations.FenceLeavesOtherThreadsPending : Prop :=
  ∀ (s t : State), exec .sfence s = .next t →
    t.others = s.others ∧
    ∀ u ∈ s.others, ∀ a ∈ u.pendingBytes s.mode, ∀ (addr : Addr) (n : Nat), a ∈ byteAddrs s.mode addr n →
      ∃ owner, holdsByteOf t owner addr n ∧
        hostLoad addr n t = .fault (.unfencedAccess t.cur.id t.cur.pc .ordinaryLoad addr n owner)

/-- In a legal state the order of the commits cannot change the memory that results (R151). -/
def Obligations.CommitOrderCannotBeSeen : Prop :=
  ∀ (s : State) (es : List NTEntry) (m : Memory), s.legal → m.wf → es.Perm s.cur.nt →
    commitEntries s.mode m es = commitEntries s.mode m s.cur.nt

/-- `StoreBarrier`: after the fence, memory shows every thread what the issuing thread's own loads saw outside its
pending bytes, and no ordinary store of the thread waits any longer (R152). The store buffer is the model's choice (log 13). -/
def Obligations.FencePublishesOrdinaryStores : Prop :=
  ∀ s t : State, exec .sfence s = .next t →
    t.cur.storeBuf = [] ∧ t.loadView = t.mem ∧
    ∀ x : Nat, (∀ e ∈ s.cur.nt, ∀ a ∈ byteAddrs s.mode e.addr e.bytes.length, a.toNat ≠ x) →
      t.mem.read x = s.loadView.read x

/-- An 8-byte streaming store, its fence, and then an ordinary 4-byte load at the address plus 4 gives the high half of the lane; a
4-byte store commits exactly its 4 bytes, and every byte that no earlier entry and no buffered store covers keeps its value
(R41, R42). That the load completes, with no check but those of R50, is the model's deduction (log 27), and that its value stands
in an event is the model's choice (log 21); so is the store buffer (log 13). -/
def Obligations.StoreFenceLoadHighHalf : Prop :=
  (∀ (s t u : State) (rex : Bool) (b : GReg) (disp : Disp) (y : XReg) (v : Word) (ea : Addr),
    v = (s.lane y .lane0).val → ea = s.effectiveAddress b disp →
    exec (.movntsd rex b disp y) s = .next t → exec .sfence t = .next u →
    ∃ w, hostLoad (ea + 4) 4 u = .next w ∧
      w.events = u.events ++ [.load u.cur.id (ea + 4)
        [v.extractLsb' 32 8, v.extractLsb' 40 8, v.extractLsb' 48 8, v.extractLsb' 56 8]]) ∧
  (∀ (s t u : State) (rex : Bool) (b : GReg) (disp : Disp) (y : XReg) (ea : Addr), ea = s.effectiveAddress b disp →
    exec (.movntss rex b disp y) s = .next t → exec .sfence t = .next u →
    (∀ k < 4, u.mem.read (wrap s.mode (ea + BitVec.ofNat 64 k)).toNat = (s.lane y .lane0).val.extractLsb' (8 * k) 8) ∧
    ∀ x : Nat, (∀ a ∈ byteAddrs s.mode ea 4, a.toNat ≠ x) →
      (∀ e ∈ s.cur.nt, ∀ a ∈ byteAddrs s.mode e.addr e.bytes.length, a.toNat ≠ x) →
      (∀ e ∈ s.cur.storeBuf, ∀ a ∈ byteAddrs s.mode e.addr e.bytes.length, a.toNat ≠ x) →
      u.mem.read x = s.mem.read x)

/-! ### Accesses of the host and of the fetch -/

/-- Every access whose bytes meet `AllPending` raises `UnfencedAccess`, with a thread that holds one of the bytes: an ordinary load, an
ordinary store and the host's read at a turn of the host, and the fetch of an instruction's byte (R50, R57, R165). The
streaming stores are in StreamingStoreFaultOrder. That a fetch is checked byte by byte is the model's choice (log 15), and so are
the form of the turns (log 12) and the thread and pc in the entry of the host's read (log 30). -/
def Obligations.UnfencedAccessFaults : Prop :=
  (∀ (s : State) (addr : Addr) (n : Nat) (bytes : List Byte) (rest : List Turn),
    s.running → meetsPending s addr n → bytes.length = n →
    ∃ owner, holdsByteOf s owner addr n ∧
      (s.agenda = .host (.load addr n) :: rest →
        step s = .fault (.unfencedAccess s.cur.id s.cur.pc .ordinaryLoad addr n owner)) ∧
      (s.agenda = .host (.store addr bytes) :: rest →
        step s = .fault (.unfencedAccess s.cur.id s.cur.pc .ordinaryStore addr n owner)) ∧
      (s.agenda = .host (.read addr n) :: rest →
        step s = .fault (.unfencedAccess s.cur.id s.cur.pc .hostRead addr n owner))) ∧
  (∀ (s : State) (i : Instr) (k : Nat), readyToIssue s → i.wellFormed s.mode = true → k < i.length →
    standAtPc s (encode i) k → pcByte s k ∈ s.allPending →
    ∃ owner, holdsByteOf s owner (pcByte s k) 1 ∧
      step s = .fault (.unfencedAccess s.cur.id s.cur.pc .fetch (pcByte s k) 1 owner))

/-- An access of the host that meets no pending byte completes, whatever memory holds there: an ordinary load and the host's read
give one byte for each address (R29, R50). The model's choices: the form of the turns (log 12), the
store buffer that a thread's own loads see (log 13), the event that holds the bytes (log 21) and that the host's read sees memory
alone (log 29); that no check but those of R50 applies is its deduction (log 27). -/
def Obligations.AccessesClearOfPendingBytesComplete : Prop :=
  ∀ (s : State) (addr : Addr) (n : Nat) (bytes : List Byte) (rest : List Turn),
    s.running → ¬ meetsPending s addr n → bytes.length = n →
    (s.agenda = .host (.load addr n) :: rest → ∃ bs : List Byte, bs.length = n ∧
      (∀ k < n, bs[k]? = some (s.loadView.read (wrap s.mode (addr + BitVec.ofNat 64 k)).toNat)) ∧
      step s = .next { s with events := s.events ++ [.load s.cur.id addr bs], agenda := rest }) ∧
    (s.agenda = .host (.read addr n) :: rest → ∃ bs : List Byte, bs.length = n ∧
      (∀ k < n, bs[k]? = some (s.mem.read (wrap s.mode (addr + BitVec.ofNat 64 k)).toNat)) ∧
      step s = .next { s with events := s.events ++ [.read addr bs], agenda := rest }) ∧
    (s.agenda = .host (.store addr bytes) :: rest → ∃ t, step s = .next t ∧
      t.events = s.events ++ [.store s.cur.id addr bytes] ∧ t.agenda = rest)

/-- A thread that ends its run with pending entries raises `UnfencedAtEnd`; with none it ends; and a final state has no pending
entry and no fault (R56, R166). The model's choices: the form of the turn (log 12); that it stands for a return of control outside
the program too and leaves the thread ended (log 22); and that ordinary stores which wait in its store buffer do not hinder it
(log 29). -/
def Obligations.EndNeedsAnEmptyBuffer : Prop :=
  (∀ (s : State) (rest : List Turn), s.running → s.agenda = .host .endRun :: rest →
    (s.cur.nt ≠ [] → step s = .fault (.unfencedAtEnd s.cur.id s.cur.pc s.cur.nt)) ∧
    (s.cur.nt = [] → step s = .next { s with cur := { s.cur with ended := true }, agenda := rest })) ∧
  (∀ s : State, s.final → (∀ t ∈ s.threads, t.nt = []) ∧ s.faults = [])

/-- A write of an operand register by the host puts both halves there and sets both marks (R26, R192). The form of the turn is the
model's choice (log 12). -/
def Obligations.HostWriteSetsBothMarks : Prop :=
  ∀ (s : State) (i : XReg) (v : BitVec 128) (rest : List Turn), s.running → s.agenda = .host (.writeX i v) :: rest →
    ∃ t, step s = .next t ∧ t.lane i .lane0 = { val := v.extractLsb' 0 64, written := true } ∧
      t.lane i .lane1 = { val := v.extractLsb' 64 64, written := true } ∧
      ∀ r, r ≠ i → t.cur.x.get r = s.cur.x.get r

/-- The host turns to another thread: that thread issues next, no thread changes, and memory is the same (R6, R178). The form of
the turn is the model's choice (logs 11, 12). -/
def Obligations.SwitchKeepsEveryThread : Prop :=
  ∀ (s : State) (u : Thread) (rest : List Turn), s.running → (s.threads.map Thread.id).Nodup → u ∈ s.threads →
    s.agenda = .host (.switch u.id) :: rest →
    ∃ t, step s = .next t ∧ t.cur = u ∧ t.threads.Perm s.threads ∧ t.mem = s.mem ∧ t.agenda = rest

/-- Under sequential consistency an ordinary store is in memory at once; with store buffers it is seen by its own thread's loads and by
no other thread until it drains (R53, R152). The two memory models are the model's choice (log 13). -/
def Obligations.OrdinaryStoreVisibility : Prop :=
  ∀ (s t : State) (addr : Addr) (bytes : List Byte), bytes.length ≤ 2 ^ 32 → hostStore addr bytes s = .next t →
    (s.platform.ordinaryMM = .sequential → ∀ k < bytes.length,
      some (t.mem.read (wrap s.mode (addr + BitVec.ofNat 64 k)).toNat) = bytes[k]?) ∧
    (s.platform.ordinaryMM = .storeBuffered → t.mem = s.mem ∧ ∀ k < bytes.length,
      some (t.loadView.read (wrap s.mode (addr + BitVec.ofNat 64 k)).toNat) = bytes[k]?)

/-- Where fetch coherence is deferred, no instruction changes what the thread's fetch sees; bytes the host makes visible read as memory
does (R57, R197). The two values of the parameter, and that the host's turn goes through at pending addresses too, are the model's
choice (log 14). -/
def Obligations.FetchSeesCommitsByItsParameter : Prop :=
  (∀ (i : Instr) (s t : State), exec i s = .next t →
    (s.platform.fetchCoherence = .deferred → t.fetchView = s.fetchView) ∧
    (s.platform.fetchCoherence = .coherent → t.fetchView = t.mem)) ∧
  (∀ (s : State) (addr : Addr) (n : Nat), s.platform.fetchCoherence = .deferred →
    ∃ t, hostSyncFetch addr n s = .next t ∧
      ∀ a ∈ byteAddrs s.mode addr n, t.fetchView.read a.toNat = s.mem.read a.toNat)

/-! ### The whole machine -/

/-- The invariant of the machine: every step from a legal state leads to a legal state (R132, R151, R21, R27). -/
def Obligations.StepKeepsLegal : Prop :=
  ∀ s t : State, s.legal → step s = .next t → t.legal

/-- The machine right after reset is legal. -/
def Obligations.ResetIsLegal : Prop := State.reset.legal

/-- What reset leaves, as far as the spec gives it: every `NTBuf` is empty, the fault record is empty and every lane is unwritten
(R32, R190). The values of the registers, the pc and memory are the model's (logs 4 to 7). -/
def Obligations.ResetLeavesLanesUnwritten : Prop :=
  (∀ t ∈ State.reset.threads, t.nt = [] ∧ ∀ i l, ((t.x.get i).lane l).written = false) ∧ State.reset.faults = []

/-- Entries are added only by a streaming store of their own thread, one at a time at the end, and removed only by that thread's fence, all
at once (R27, R150). -/
def Obligations.PendingChangesOnlyByStoreAndFence : Prop :=
  ∀ (s t : State) (a : Nat), (s.threads.map Thread.id).Nodup → step s = .next t → t.ntOf a ≠ s.ntOf a →
    a = s.cur.id ∧ ∃ i, s.fetch = .instr i ∧
      (((i.op = .movntsd ∨ i.op = .movntss) ∧ ∃ e, t.ntOf a = s.ntOf a ++ [e]) ∨ (i = .sfence ∧ t.ntOf a = []))

/-- No step changes a parameter: the platform is the same, and so is what each thread may write (R24, R48). -/
def Obligations.ParametersNeverChange : Prop :=
  ∀ (s t : State), (s.threads.map Thread.id).Nodup → step s = .next t →
    t.platform = s.platform ∧
    ∀ a, (t.findThread a).map Thread.windows = (s.findThread a).map Thread.windows

/-- The block writes no general register and reads one only as the base of a store's address: with any other values in the others the same
happens (R20, D24). -/
def Obligations.GeneralRegistersOnlyAsBase : Prop :=
  ∀ (s : State) (g : Vector Word 16) (rex : Bool) (d y : XReg) (b : GReg) (disp : Disp),
    (∀ i : Instr, i = .extrq rex d y ∨ i = .insertq rex d y ∨ i = .sfence →
      exec i (withG s g) = mapNext (fun t => withG t g) (exec i s)) ∧
    (∀ i : Instr, i = .movntsd rex b disp y ∨ i = .movntss rex b disp y → g.get b = s.cur.g.get b →
      exec i (withG s g) = mapNext (fun t => withG t g) (exec i s)) ∧
    ∀ (i : Instr) (t : State), exec i s = .next t → t.cur.g = s.cur.g

/-- A launch places the instruction at the pc, ready to be fetched, in a launch state of R191 whose issuing thread has every lane
written. How the launch is made is the model's choice (log 10). -/
def Obligations.LaunchPlacesTheInstruction : Prop :=
  ∀ (s : State) (nbits w : Nat), nbits ≤ 72 →
    readyToIssue (s.withFetchWord nbits w) ∧
    standAtPc (s.withFetchWord nbits w) (tableBytes nbits w) (tableBytes nbits w).length ∧
    (s.others = [] → (s.withFetchWord nbits w).launchState fun _ _ _ => true) ∧
    ∀ i l, ((s.withFetchWord nbits w).lane i l).val = (s.lane i l).val
end

