-- ==== Sys2Proof/Laws/Codec.lean ====
section
/-! SUPPORT. The codec bit by bit: masks, the extracted field and the inserted field. -/

namespace Sys2Proof.Machine

theorem getLsbD_mask {len k : Nat} (hl : len ≤ 64) : (mask len).getLsbD k = decide (k < len) := by
  simp only [mask, BitVec.getLsbD_ushiftRight, BitVec.getLsbD_allOnes]
  exact decide_eq_decide.2 (by omega)

/-- Bit `k` of the extracted field is bit `idx + k` of the data below `len`, and zero from there on (R101). -/
theorem getLsbD_extractField {a : Word} {len idx k : Nat} (hl : len ≤ 64) :
    (extractField a len idx).getLsbD k = (decide (k < len) && a.getLsbD (idx + k)) := by
  rw [extractField, BitVec.getLsbD_and, BitVec.getLsbD_ushiftRight, getLsbD_mask hl, Bool.and_comm]

/-- Bit `k` of the inserted result comes from the field bits inside the field and from the destination outside (R111). -/
theorem getLsbD_insertField {a b : Word} {len idx k : Nat} (hl : len ≤ 64) (hk : k < 64) :
    (insertField a b len idx).getLsbD k =
      if idx ≤ k ∧ k < idx + len then b.getLsbD (k - idx) else a.getLsbD k := by
  simp only [insertField, BitVec.getLsbD_or, BitVec.getLsbD_and, BitVec.getLsbD_not, BitVec.getLsbD_shiftLeft,
    getLsbD_mask hl, hk, decide_true, Bool.true_and]
  rcases Nat.lt_or_ge k idx with h | h
  · simp [h, Nat.not_le.2 h]
  · have h1 : ¬ k < idx := by omega
    have h2 : decide (k - idx < len) = decide (k < idx + len) := decide_eq_decide.2 (by omega)
    by_cases h3 : k < idx + len <;> simp [h, h1, h2, h3]

/-- A descriptor's raw fields decide everything `Desc` gives (R71). -/
theorem decodeDesc_eq (c : Word) :
    decodeDesc c =
      { len := if (c.extractLsb' 0 6).toNat = 0 then 64 else (c.extractLsb' 0 6).toNat
        idx := (c.extractLsb' 8 6).toNat
        valid := decide ((c.extractLsb' 8 6).toNat +
          (if (c.extractLsb' 0 6).toNat = 0 then 64 else (c.extractLsb' 0 6).toNat) ≤ 64) } := rfl

theorem decodeDesc_len_pos (c : Word) : 1 ≤ (decodeDesc c).len := by
  simp only [decodeDesc]; split <;> omega

theorem decodeDesc_len_le (c : Word) : (decodeDesc c).len ≤ 64 := by
  simp only [decodeDesc]
  have := (c.extractLsb' 0 6).isLt
  split <;> omega

theorem decodeDesc_idx_lt (c : Word) : (decodeDesc c).idx < 64 := (c.extractLsb' 8 6).isLt

theorem decodeDesc_valid_iff (c : Word) :
    (decodeDesc c).valid = true ↔ (decodeDesc c).idx + (decodeDesc c).len ≤ 64 := by simp [decodeDesc]

end Sys2Proof.Machine
end

