-- ==== Sys2Proof/Laws/State.lean ====
section
/-! SUPPORT. One lemma per field and update of the state, true by unfolding once. -/

namespace Sys2Proof.Machine

variable (s : State)

/-! ### State.setX -/

@[simp] theorem State.setX_platform (i : XReg) (h l : Word) : (s.setX i h l).platform = s.platform := rfl
@[simp] theorem State.setX_others (i : XReg) (h l : Word) : (s.setX i h l).others = s.others := rfl
@[simp] theorem State.setX_mem (i : XReg) (h l : Word) : (s.setX i h l).mem = s.mem := rfl
@[simp] theorem State.setX_faults (i : XReg) (h l : Word) : (s.setX i h l).faults = s.faults := rfl
@[simp] theorem State.setX_refused (i : XReg) (h l : Word) : (s.setX i h l).refused = s.refused := rfl
@[simp] theorem State.setX_events (i : XReg) (h l : Word) : (s.setX i h l).events = s.events := rfl
@[simp] theorem State.setX_draws (i : XReg) (h l : Word) : (s.setX i h l).draws = s.draws := rfl
@[simp] theorem State.setX_agenda (i : XReg) (h l : Word) : (s.setX i h l).agenda = s.agenda := rfl
@[simp] theorem State.setX_cur_id (i : XReg) (h l : Word) : (s.setX i h l).cur.id = s.cur.id := rfl
@[simp] theorem State.setX_cur_g (i : XReg) (h l : Word) : (s.setX i h l).cur.g = s.cur.g := rfl
@[simp] theorem State.setX_cur_pc (i : XReg) (h l : Word) : (s.setX i h l).cur.pc = s.cur.pc := rfl
@[simp] theorem State.setX_cur_nt (i : XReg) (h l : Word) : (s.setX i h l).cur.nt = s.cur.nt := rfl
@[simp] theorem State.setX_cur_windows (i : XReg) (h l : Word) : (s.setX i h l).cur.windows = s.cur.windows := rfl
@[simp] theorem State.setX_cur_storeBuf (i : XReg) (h l : Word) : (s.setX i h l).cur.storeBuf = s.cur.storeBuf := rfl
@[simp] theorem State.setX_cur_imem (i : XReg) (h l : Word) : (s.setX i h l).cur.imem = s.cur.imem := rfl
@[simp] theorem State.setX_cur_ended (i : XReg) (h l : Word) : (s.setX i h l).cur.ended = s.cur.ended := rfl

/-! ### State.advance -/

@[simp] theorem State.advance_platform (L : Nat) : (s.advance L).platform = s.platform := rfl
@[simp] theorem State.advance_others (L : Nat) : (s.advance L).others = s.others := rfl
@[simp] theorem State.advance_mem (L : Nat) : (s.advance L).mem = s.mem := rfl
@[simp] theorem State.advance_faults (L : Nat) : (s.advance L).faults = s.faults := rfl
@[simp] theorem State.advance_refused (L : Nat) : (s.advance L).refused = s.refused := rfl
@[simp] theorem State.advance_events (L : Nat) : (s.advance L).events = s.events := rfl
@[simp] theorem State.advance_draws (L : Nat) : (s.advance L).draws = s.draws := rfl
@[simp] theorem State.advance_agenda (L : Nat) : (s.advance L).agenda = s.agenda := rfl
@[simp] theorem State.advance_cur_id (L : Nat) : (s.advance L).cur.id = s.cur.id := rfl
@[simp] theorem State.advance_cur_x (L : Nat) : (s.advance L).cur.x = s.cur.x := rfl
@[simp] theorem State.advance_cur_g (L : Nat) : (s.advance L).cur.g = s.cur.g := rfl
@[simp] theorem State.advance_cur_nt (L : Nat) : (s.advance L).cur.nt = s.cur.nt := rfl
@[simp] theorem State.advance_cur_windows (L : Nat) : (s.advance L).cur.windows = s.cur.windows := rfl
@[simp] theorem State.advance_cur_storeBuf (L : Nat) : (s.advance L).cur.storeBuf = s.cur.storeBuf := rfl
@[simp] theorem State.advance_cur_imem (L : Nat) : (s.advance L).cur.imem = s.cur.imem := rfl
@[simp] theorem State.advance_cur_ended (L : Nat) : (s.advance L).cur.ended = s.cur.ended := rfl

/-! ### State.draw64 -/

@[simp] theorem State.draw64_platform : s.draw64.2.platform = s.platform := rfl
@[simp] theorem State.draw64_others : s.draw64.2.others = s.others := rfl
@[simp] theorem State.draw64_mem : s.draw64.2.mem = s.mem := rfl
@[simp] theorem State.draw64_faults : s.draw64.2.faults = s.faults := rfl
@[simp] theorem State.draw64_refused : s.draw64.2.refused = s.refused := rfl
@[simp] theorem State.draw64_events : s.draw64.2.events = s.events := rfl
@[simp] theorem State.draw64_agenda : s.draw64.2.agenda = s.agenda := rfl
@[simp] theorem State.draw64_cur : s.draw64.2.cur = s.cur := rfl

/-! ### State.record -/

@[simp] theorem State.record_platform (e : Event) : (s.record e).platform = s.platform := rfl
@[simp] theorem State.record_others (e : Event) : (s.record e).others = s.others := rfl
@[simp] theorem State.record_mem (e : Event) : (s.record e).mem = s.mem := rfl
@[simp] theorem State.record_faults (e : Event) : (s.record e).faults = s.faults := rfl
@[simp] theorem State.record_refused (e : Event) : (s.record e).refused = s.refused := rfl
@[simp] theorem State.record_draws (e : Event) : (s.record e).draws = s.draws := rfl
@[simp] theorem State.record_agenda (e : Event) : (s.record e).agenda = s.agenda := rfl
@[simp] theorem State.record_cur (e : Event) : (s.record e).cur = s.cur := rfl

/-! ### State.appendEntry -/

@[simp] theorem State.appendEntry_platform (e : NTEntry) : (s.appendEntry e).platform = s.platform := rfl
@[simp] theorem State.appendEntry_others (e : NTEntry) : (s.appendEntry e).others = s.others := rfl
@[simp] theorem State.appendEntry_mem (e : NTEntry) : (s.appendEntry e).mem = s.mem := rfl
@[simp] theorem State.appendEntry_faults (e : NTEntry) : (s.appendEntry e).faults = s.faults := rfl
@[simp] theorem State.appendEntry_refused (e : NTEntry) : (s.appendEntry e).refused = s.refused := rfl
@[simp] theorem State.appendEntry_draws (e : NTEntry) : (s.appendEntry e).draws = s.draws := rfl
@[simp] theorem State.appendEntry_agenda (e : NTEntry) : (s.appendEntry e).agenda = s.agenda := rfl
@[simp] theorem State.appendEntry_cur_id (e : NTEntry) : (s.appendEntry e).cur.id = s.cur.id := rfl
@[simp] theorem State.appendEntry_cur_x (e : NTEntry) : (s.appendEntry e).cur.x = s.cur.x := rfl
@[simp] theorem State.appendEntry_cur_g (e : NTEntry) : (s.appendEntry e).cur.g = s.cur.g := rfl
@[simp] theorem State.appendEntry_cur_pc (e : NTEntry) : (s.appendEntry e).cur.pc = s.cur.pc := rfl
@[simp] theorem State.appendEntry_cur_windows (e : NTEntry) : (s.appendEntry e).cur.windows = s.cur.windows := rfl
@[simp] theorem State.appendEntry_cur_storeBuf (e : NTEntry) : (s.appendEntry e).cur.storeBuf = s.cur.storeBuf := rfl
@[simp] theorem State.appendEntry_cur_imem (e : NTEntry) : (s.appendEntry e).cur.imem = s.cur.imem := rfl
@[simp] theorem State.appendEntry_cur_ended (e : NTEntry) : (s.appendEntry e).cur.ended = s.cur.ended := rfl

/-! ### State.storeBarrier -/

@[simp] theorem State.storeBarrier_platform : s.storeBarrier.platform = s.platform := rfl
@[simp] theorem State.storeBarrier_others : s.storeBarrier.others = s.others := rfl
@[simp] theorem State.storeBarrier_faults : s.storeBarrier.faults = s.faults := rfl
@[simp] theorem State.storeBarrier_refused : s.storeBarrier.refused = s.refused := rfl
@[simp] theorem State.storeBarrier_events : s.storeBarrier.events = s.events := rfl
@[simp] theorem State.storeBarrier_draws : s.storeBarrier.draws = s.draws := rfl
@[simp] theorem State.storeBarrier_agenda : s.storeBarrier.agenda = s.agenda := rfl
@[simp] theorem State.storeBarrier_cur_id : s.storeBarrier.cur.id = s.cur.id := rfl
@[simp] theorem State.storeBarrier_cur_x : s.storeBarrier.cur.x = s.cur.x := rfl
@[simp] theorem State.storeBarrier_cur_g : s.storeBarrier.cur.g = s.cur.g := rfl
@[simp] theorem State.storeBarrier_cur_pc : s.storeBarrier.cur.pc = s.cur.pc := rfl
@[simp] theorem State.storeBarrier_cur_nt : s.storeBarrier.cur.nt = s.cur.nt := rfl
@[simp] theorem State.storeBarrier_cur_windows : s.storeBarrier.cur.windows = s.cur.windows := rfl
@[simp] theorem State.storeBarrier_cur_imem : s.storeBarrier.cur.imem = s.cur.imem := rfl
@[simp] theorem State.storeBarrier_cur_ended : s.storeBarrier.cur.ended = s.cur.ended := rfl

/-! ### State.commitPending -/

@[simp] theorem State.commitPending_platform : s.commitPending.platform = s.platform := rfl
@[simp] theorem State.commitPending_others : s.commitPending.others = s.others := rfl
@[simp] theorem State.commitPending_faults : s.commitPending.faults = s.faults := rfl
@[simp] theorem State.commitPending_refused : s.commitPending.refused = s.refused := rfl
@[simp] theorem State.commitPending_draws : s.commitPending.draws = s.draws := rfl
@[simp] theorem State.commitPending_agenda : s.commitPending.agenda = s.agenda := rfl
@[simp] theorem State.commitPending_cur_id : s.commitPending.cur.id = s.cur.id := rfl
@[simp] theorem State.commitPending_cur_x : s.commitPending.cur.x = s.cur.x := rfl
@[simp] theorem State.commitPending_cur_g : s.commitPending.cur.g = s.cur.g := rfl
@[simp] theorem State.commitPending_cur_pc : s.commitPending.cur.pc = s.cur.pc := rfl
@[simp] theorem State.commitPending_cur_windows : s.commitPending.cur.windows = s.cur.windows := rfl
@[simp] theorem State.commitPending_cur_storeBuf : s.commitPending.cur.storeBuf = s.cur.storeBuf := rfl
@[simp] theorem State.commitPending_cur_imem : s.commitPending.cur.imem = s.cur.imem := rfl
@[simp] theorem State.commitPending_cur_ended : s.commitPending.cur.ended = s.cur.ended := rfl

/-! ### What the updates write -/

@[simp] theorem State.setX_cur_x (i : XReg) (h l : Word) :
    (s.setX i h l).cur.x = s.cur.x.set i.val ((s.cur.x.get i).wrote h l) i.isLt := rfl

@[simp] theorem State.advance_cur_pc (L : Nat) :
    (s.advance L).cur.pc = wrap s.mode (s.cur.pc + BitVec.ofNat 64 L) := rfl

@[simp] theorem State.draw64_value : s.draw64.1 = Config.draw s.draws := rfl
@[simp] theorem State.draw64_draws : s.draw64.2.draws = s.draws + 1 := rfl
@[simp] theorem State.record_events (e : Event) : (s.record e).events = s.events ++ [e] := rfl
@[simp] theorem State.appendEntry_cur_nt (e : NTEntry) : (s.appendEntry e).cur.nt = s.cur.nt ++ [e] := rfl
@[simp] theorem State.appendEntry_events (e : NTEntry) :
    (s.appendEntry e).events = s.events ++ [.ntIssue s.cur.id e.addr e.n e.bytes] := rfl
@[simp] theorem State.storeBarrier_mem : s.storeBarrier.mem = drainStores s.mode s.mem s.cur.storeBuf := rfl
@[simp] theorem State.storeBarrier_cur_storeBuf : s.storeBarrier.cur.storeBuf = [] := rfl
@[simp] theorem State.commitPending_mem : s.commitPending.mem = commitEntries s.mode s.mem s.cur.nt := rfl
@[simp] theorem State.commitPending_cur_nt : s.commitPending.cur.nt = [] := rfl
@[simp] theorem State.commitPending_events :
    s.commitPending.events = s.events ++ s.cur.nt.map fun e => .ntCommit s.cur.id e.addr e.n e.bytes := rfl

/-! ### Lanes -/

@[simp] theorem XEntry.wrote_lane0 (e : XEntry) (h l : Word) : (e.wrote h l).lane0 = { val := l, written := true } := rfl
@[simp] theorem XEntry.wrote_lane1 (e : XEntry) (h l : Word) : (e.wrote h l).lane1 = { val := h, written := true } := rfl
@[simp] theorem XEntry.wrote_upper (e : XEntry) (h l : Word) : (e.wrote h l).upper = e.upper := rfl

@[simp] theorem State.advance_lane (L : Nat) (i : XReg) (l : LaneNo) : (s.advance L).lane i l = s.lane i l := rfl
@[simp] theorem State.draw64_lane (i : XReg) (l : LaneNo) : s.draw64.2.lane i l = s.lane i l := rfl
@[simp] theorem State.record_lane (e : Event) (i : XReg) (l : LaneNo) : (s.record e).lane i l = s.lane i l := rfl
@[simp] theorem State.appendEntry_lane (e : NTEntry) (i : XReg) (l : LaneNo) : (s.appendEntry e).lane i l = s.lane i l := rfl

/-- Reading a register of a vector after a write to one. -/
theorem get_set_reg {α : Type} (v : Vector α 16) (d i : Fin 16) (a : α) :
    (v.set d.val a d.isLt).get i = if i = d then a else v.get i := by
  simp only [Vector.get_eq_getElem, Vector.getElem_set, Fin.ext_iff, eq_comm]

/-- `X[d] <- hi ++ lo` changes register `d` and no other (R12). -/
theorem State.setX_get (d i : XReg) (h l : Word) :
    (s.setX d h l).cur.x.get i = if i = d then (s.cur.x.get d).wrote h l else s.cur.x.get i := by
  rw [State.setX_cur_x, get_set_reg]

end Sys2Proof.Machine
end

