-- ==== Sys2Proof/Laws/Memory.lean ====
section
/-! SUPPORT. Memory: the canonical form is kept, a read after a write, and stores as lists of cells. -/

namespace Sys2Proof.Machine

/-! ### One byte -/

theorem Memory.read_insert_same (m : Memory) (a : Nat) (b : Byte) : (m.insert a b).read a = b := by
  induction m with
  | nil => simp [Memory.insert, Memory.read]
  | cons c m ih =>
    simp only [Memory.insert]
    split
    · simp [Memory.read]
    · split
      · simp [Memory.read]
      · next h => simp [Memory.read, ih, Ne.symm h]

theorem Memory.read_insert_other (m : Memory) {a x : Nat} (b : Byte) (h : a ≠ x) : (m.insert a b).read x = m.read x := by
  induction m with
  | nil => simp [Memory.insert, Memory.read, h]
  | cons c m ih =>
    simp only [Memory.insert]
    split
    · simp [Memory.read, h]
    · split
      · next h' => simp [Memory.read, h, ← h']
      · simp [Memory.read, ih]

/-- An address taken off the list reads as unlisted, and every other as before. -/
theorem Memory.read_filter (m : Memory) (a x : Nat) :
    Memory.read (m.filter fun c => c.1 != a) x = if a = x then Memory.unlisted else m.read x := by
  induction m with
  | nil => simp [Memory.read]
  | cons c m ih =>
    by_cases hc : c.1 = a
    · rw [List.filter_cons_of_neg (by simp [hc]), ih, Memory.read, hc]
      split <;> simp [*]
    · rw [List.filter_cons_of_pos (by simp [hc]), Memory.read, Memory.read, ih]
      split
      · next h => rw [if_neg fun h' => hc (h.trans h'.symm)]
      · rfl

/-- A read after a write to the same address gives the byte written. -/
theorem Memory.read_write_same (m : Memory) (a : Nat) (b : Byte) : (m.write a b).read a = b := by
  simp only [Memory.write]
  split
  · next h => rw [Memory.read_filter, if_pos rfl, h]
  · exact Memory.read_insert_same m a b

/-- A write leaves every other address alone. -/
theorem Memory.read_write_other (m : Memory) {a x : Nat} (b : Byte) (h : a ≠ x) : (m.write a b).read x = m.read x := by
  simp only [Memory.write]
  split
  · rw [Memory.read_filter, if_neg h]
  · exact Memory.read_insert_other m b h

theorem Memory.mem_insert {m : Memory} {a : Nat} {b : Byte} {c : Host.Cell} (h : c ∈ m.insert a b) :
    c = (a, b) ∨ c ∈ m := by
  induction m with
  | nil => exact .inl (by simpa [Memory.insert] using h)
  | cons d m ih =>
    simp only [Memory.insert] at h
    split at h
    · exact List.mem_cons.1 h
    · split at h
      · exact (List.mem_cons.1 h).imp_right (List.mem_cons_of_mem _)
      · rcases List.mem_cons.1 h with rfl | h
        · exact .inr List.mem_cons_self
        · exact (ih h).imp_right (List.mem_cons_of_mem _)

theorem Memory.pairwise_insert {m : Memory} (h : List.Pairwise (fun x y : Host.Cell => x.1 < y.1) m) (a : Nat) (b : Byte) :
    List.Pairwise (fun x y : Host.Cell => x.1 < y.1) (m.insert a b) := by
  induction m with
  | nil => exact List.pairwise_singleton _ _
  | cons c m ih =>
    obtain ⟨hc, hm⟩ := List.pairwise_cons.1 h
    simp only [Memory.insert]
    split
    · next ha => exact List.pairwise_cons.2 ⟨List.forall_mem_cons.2 ⟨ha, fun d hd => ha.trans (hc d hd)⟩, h⟩
    · split
      · next ha => exact List.pairwise_cons.2 ⟨fun d hd => ha ▸ hc d hd, hm⟩
      · refine List.pairwise_cons.2 ⟨fun d hd => ?_, ih hm⟩
        rcases Memory.mem_insert hd with rfl | hd
        · simp only; omega
        · exact hc d hd

theorem Memory.wf_nil : Memory.wf [] := ⟨List.Pairwise.nil, fun _ h => nomatch h⟩

/-- A write keeps the canonical form. -/
theorem Memory.wf_write {m : Memory} (h : m.wf) (a : Nat) (b : Byte) : (m.write a b).wf := by
  simp only [Memory.write]
  split
  · exact ⟨h.1.filter _, fun c hc => h.2 c (List.mem_of_mem_filter hc)⟩
  · next hb =>
    refine ⟨Memory.pairwise_insert h.1 a b, fun c hc => ?_⟩
    rcases Memory.mem_insert hc with rfl | hc
    · exact hb
    · exact h.2 c hc

theorem Memory.read_of_lt_head {m : Memory} {x : Nat} (h : ∀ c ∈ m, x < c.1) : m.read x = Memory.unlisted := by
  induction m with
  | nil => rfl
  | cons c m ih =>
    rw [Memory.read, if_neg (h c List.mem_cons_self).ne', ih fun d hd => h d (List.mem_cons_of_mem _ hd)]

/-! ### Lists of cells -/

/-- Writes cells from left to right. -/
def writeCells (m : Memory) (cs : List Host.Cell) : Memory := cs.foldl (fun m c => m.write c.1 c.2) m

/-- The cells that a store of `bs` at `a` writes. -/
def storeCells (md : Mode) : Addr → List Byte → List Host.Cell
  | _, [] => []
  | a, b :: bs => ((wrap md a).toNat, b) :: storeCells md (a + 1) bs

theorem Memory.writeBytes_eq (md : Mode) (m : Memory) (a : Addr) (bs : List Byte) :
    m.writeBytes md a bs = writeCells m (storeCells md a bs) := by
  induction bs generalizing m a with
  | nil => rfl
  | cons b bs ih => simp [Memory.writeBytes, ih, storeCells, writeCells]

theorem writeCells_append (m : Memory) (cs ds : List Host.Cell) :
    writeCells m (cs ++ ds) = writeCells (writeCells m cs) ds := by simp [writeCells]

theorem writeCells_cons (m : Memory) (c : Host.Cell) (cs : List Host.Cell) :
    writeCells m (c :: cs) = writeCells (m.write c.1 c.2) cs := rfl

theorem commitEntries_eq (md : Mode) (m : Memory) (es : List NTEntry) :
    commitEntries md m es = writeCells m (es.flatMap fun e => storeCells md e.addr e.bytes) := by
  induction es generalizing m with
  | nil => rfl
  | cons e es ih => simp [commitEntries, ih, Memory.writeBytes_eq, writeCells_append]

theorem drainStores_eq (md : Mode) (m : Memory) (es : List BufferedStore) :
    drainStores md m es = writeCells m (es.flatMap fun e => storeCells md e.addr e.bytes) := by
  induction es generalizing m with
  | nil => rfl
  | cons e es ih => simp [drainStores, ih, Memory.writeBytes_eq, writeCells_append]

theorem wf_writeCells {m : Memory} (h : m.wf) (cs : List Host.Cell) : (writeCells m cs).wf := by
  induction cs generalizing m with
  | nil => exact h
  | cons c cs ih => exact ih (Memory.wf_write h _ _)

theorem read_writeCells_other (m : Memory) {cs : List Host.Cell} {x : Nat} (h : ∀ c ∈ cs, c.1 ≠ x) :
    (writeCells m cs).read x = m.read x := by
  induction cs generalizing m with
  | nil => rfl
  | cons c cs ih =>
    rw [writeCells_cons, ih _ fun d hd => h d (List.mem_cons_of_mem _ hd),
      Memory.read_write_other _ _ (h c List.mem_cons_self)]

/-- Where no address is written twice, each cell's byte is what a read gives. -/
theorem read_writeCells_mem (m : Memory) {cs : List Host.Cell} (hn : (cs.map Prod.fst).Nodup) {c : Host.Cell}
    (h : c ∈ cs) : (writeCells m cs).read c.1 = c.2 := by
  induction cs generalizing m with
  | nil => simp at h
  | cons d cs ih =>
    rw [List.map_cons, List.nodup_cons] at hn
    rw [writeCells_cons]
    rcases List.mem_cons.1 h with rfl | h
    · rw [read_writeCells_other, Memory.read_write_same]
      intro e he hk
      exact hn.1 (List.mem_map.2 ⟨e, he, hk⟩)
    · exact ih _ hn.2 h

/-- The canonical form: two memories in it that read alike everywhere are equal. -/
theorem Memory.ext_read {m m' : Memory} (h : m.wf) (h' : m'.wf) (hr : ∀ x, m.read x = m'.read x) : m = m' := by
  induction m generalizing m' with
  | nil =>
    cases m' with
    | nil => rfl
    | cons d m' => exact absurd (by simpa [Memory.read] using (hr d.1).symm) (h'.2 d List.mem_cons_self)
  | cons c m ih =>
    have hc := List.pairwise_cons.1 h.1
    cases m' with
    | nil => exact absurd (by simpa [Memory.read] using hr c.1) (h.2 c List.mem_cons_self)
    | cons d m' =>
      have hd := List.pairwise_cons.1 h'.1
      have key : c.1 = d.1 := by
        rcases lt_trichotomy c.1 d.1 with hlt | heq | hlt
        · refine absurd ?_ (h.2 c List.mem_cons_self)
          rw [← Memory.read_of_lt_head (m := d :: m')
            (List.forall_mem_cons.2 ⟨hlt, fun e he => hlt.trans (hd.1 e he)⟩), ← hr]
          simp [Memory.read]
        · exact heq
        · refine absurd ?_ (h'.2 d List.mem_cons_self)
          rw [← Memory.read_of_lt_head (m := c :: m)
            (List.forall_mem_cons.2 ⟨hlt, fun e he => hlt.trans (hc.1 e he)⟩), hr]
          simp [Memory.read]
      have val : c.2 = d.2 := by simpa [Memory.read, key] using hr c.1
      rw [Prod.ext key val, ih ⟨hc.2, fun e he => h.2 e (List.mem_cons_of_mem _ he)⟩
        ⟨hd.2, fun e he => h'.2 e (List.mem_cons_of_mem _ he)⟩ fun x => ?_]
      have := hr x
      simp only [Memory.read] at this
      by_cases hx : x = c.1
      · rw [Memory.read_of_lt_head fun e he => hx ▸ hc.1 e he, Memory.read_of_lt_head fun e he => hx ▸ key ▸ hd.1 e he]
      · rwa [if_neg (Ne.symm hx), if_neg (key ▸ Ne.symm hx)] at this

/-! ### Addresses of a store -/

theorem wrap_wrap (md : Mode) (a : Addr) : wrap md (wrap md a) = wrap md a := by
  cases md
  · rfl
  · simp only [wrap]
    ext i hi
    simp

theorem wrap_toNat (md : Mode) (a : Addr) : (wrap md a).toNat = a.toNat % 2 ^ addrWidth md := by
  cases md
  · have := a.isLt; simp [wrap, addrWidth]; omega
  · have := a.isLt; simp [wrap, addrWidth]; omega

theorem wrap_eq_iff (md : Mode) (a b : Addr) :
    wrap md a = wrap md b ↔ a.toNat % 2 ^ addrWidth md = b.toNat % 2 ^ addrWidth md := by
  rw [← wrap_toNat, ← wrap_toNat, BitVec.toNat_inj]

theorem wrap_add_left (md : Mode) (a b : Addr) : wrap md (wrap md a + b) = wrap md (a + b) := by
  rw [wrap_eq_iff]
  cases md <;> simp only [BitVec.toNat_add, wrap_toNat, addrWidth] <;> omega

theorem byteAddrs_length (md : Mode) (a : Addr) (n : Nat) : (byteAddrs md a n).length = n := by simp [byteAddrs]

theorem mem_byteAddrs {md : Mode} {a x : Addr} {n : Nat} :
    x ∈ byteAddrs md a n ↔ ∃ k < n, wrap md (a + BitVec.ofNat 64 k) = x := by simp [byteAddrs]

theorem addr_succ (a : Addr) (k : Nat) : a + 1 + BitVec.ofNat 64 k = a + BitVec.ofNat 64 (k + 1) := by
  rw [BitVec.ofNat_add, BitVec.add_comm (BitVec.ofNat 64 k), ← BitVec.add_assoc]; rfl

theorem byteAddrs_succ (md : Mode) (a : Addr) (n : Nat) :
    byteAddrs md a (n + 1) = wrap md a :: byteAddrs md (a + 1) n := by
  simp only [byteAddrs, List.range_succ_eq_map, List.map_cons, List.map_map]
  refine congrArg₂ _ (by simp) (List.map_congr_left fun k _ => ?_)
  rw [Function.comp_apply, addr_succ]

theorem storeCells_keys (md : Mode) (a : Addr) (bs : List Byte) :
    (storeCells md a bs).map Prod.fst = (byteAddrs md a bs.length).map BitVec.toNat := by
  induction bs generalizing a with
  | nil => rfl
  | cons b bs ih => rw [storeCells, List.map_cons, List.length_cons, byteAddrs_succ, List.map_cons, ih]

theorem storeCells_getElem? (md : Mode) (a : Addr) (bs : List Byte) (k : Nat) :
    (storeCells md a bs)[k]? = bs[k]?.map fun b => ((wrap md (a + BitVec.ofNat 64 k)).toNat, b) := by
  induction bs generalizing a k with
  | nil => rfl
  | cons b bs ih =>
    cases k with
    | zero => simp [storeCells]
    | succ k =>
      simp only [storeCells, List.getElem?_cons_succ, ih, addr_succ]

/-- The bytes of one store have different addresses (R132). -/
theorem byteAddrs_nodup (md : Mode) (a : Addr) {n : Nat} (hn : n ≤ 2 ^ 32) : (byteAddrs md a n).Nodup := by
  refine List.Nodup.map_on (fun i hi j hj h => ?_) List.nodup_range
  rw [List.mem_range] at hi hj
  rw [wrap_eq_iff] at h
  cases md <;> simp only [BitVec.toNat_add, BitVec.toNat_ofNat, addrWidth] at h <;> omega

theorem storeCells_nodup (md : Mode) (a : Addr) {bs : List Byte} (hn : bs.length ≤ 2 ^ 32) :
    ((storeCells md a bs).map Prod.fst).Nodup := by
  rw [storeCells_keys]
  exact (byteAddrs_nodup md a hn).map BitVec.toNat_injective

/-- `MemWrite` leaves every byte outside the store alone (R41, R42). -/
theorem Memory.read_writeBytes_other (md : Mode) (m : Memory) (a : Addr) (bs : List Byte) {x : Addr}
    (h : x ∉ byteAddrs md a bs.length) : (m.writeBytes md a bs).read x.toNat = m.read x.toNat := by
  rw [Memory.writeBytes_eq]
  refine read_writeCells_other m fun c hc hk => h ?_
  have : c.1 ∈ (storeCells md a bs).map Prod.fst := List.mem_map_of_mem hc
  rw [storeCells_keys, List.mem_map] at this
  obtain ⟨y, hy, hyc⟩ := this
  rwa [← BitVec.toNat_injective (hyc.trans hk)]

/-- `MemWrite` puts byte `k` at address `a + k` (R41). -/
theorem Memory.read_writeBytes_same (md : Mode) (m : Memory) (a : Addr) {bs : List Byte} (hn : bs.length ≤ 2 ^ 32)
    {k : Nat} (hk : k < bs.length) :
    some ((m.writeBytes md a bs).read (wrap md (a + BitVec.ofNat 64 k)).toNat) = bs[k]? := by
  rw [Memory.writeBytes_eq]
  have hc : (storeCells md a bs)[k]? = some ((wrap md (a + BitVec.ofNat 64 k)).toNat, bs[k]) := by
    rw [storeCells_getElem?, List.getElem?_eq_getElem hk]; rfl
  rw [List.getElem?_eq_getElem hk]
  exact congrArg some (read_writeCells_mem m (storeCells_nodup md a hn) (List.mem_of_getElem? hc))

theorem Memory.wf_writeBytes (md : Mode) {m : Memory} (h : m.wf) (a : Addr) (bs : List Byte) :
    (m.writeBytes md a bs).wf := by
  rw [Memory.writeBytes_eq]; exact wf_writeCells h _

theorem wf_commitEntries (md : Mode) {m : Memory} (h : m.wf) (es : List NTEntry) : (commitEntries md m es).wf := by
  rw [commitEntries_eq]; exact wf_writeCells h _

theorem wf_drainStores (md : Mode) {m : Memory} (h : m.wf) (es : List BufferedStore) : (drainStores md m es).wf := by
  rw [drainStores_eq]; exact wf_writeCells h _

theorem wf_copyBytes {src dst : Memory} (h : dst.wf) (as : List Addr) : (copyBytes src dst as).wf := by
  induction as generalizing dst with
  | nil => exact h
  | cons a as ih => exact ih (Memory.wf_write h _ _)

theorem mem_storeCells {md : Mode} {a : Addr} {bs : List Byte} {c : Host.Cell} (h : c ∈ storeCells md a bs) :
    ∃ x ∈ byteAddrs md a bs.length, x.toNat = c.1 := by
  have : c.1 ∈ (storeCells md a bs).map Prod.fst := List.mem_map_of_mem h
  rwa [storeCells_keys, List.mem_map] at this

/-- Committing entries leaves every byte that none of them covers alone (R151). -/
theorem commitEntries_read_other (md : Mode) (m : Memory) {es : List NTEntry} {x : Nat}
    (h : ∀ e ∈ es, ∀ a ∈ byteAddrs md e.addr e.bytes.length, a.toNat ≠ x) : (commitEntries md m es).read x = m.read x := by
  rw [commitEntries_eq]
  refine read_writeCells_other m fun c hc => ?_
  obtain ⟨e, he, hce⟩ := List.mem_flatMap.1 hc
  obtain ⟨y, hy, hyc⟩ := mem_storeCells hce
  exact hyc ▸ h e he y hy

/-- Draining buffered stores leaves every byte that none of them covers alone (R152). -/
theorem drainStores_read_other (md : Mode) (m : Memory) {es : List BufferedStore} {x : Nat}
    (h : ∀ e ∈ es, ∀ a ∈ byteAddrs md e.addr e.bytes.length, a.toNat ≠ x) : (drainStores md m es).read x = m.read x := by
  rw [drainStores_eq]
  refine read_writeCells_other m fun c hc => ?_
  obtain ⟨e, he, hce⟩ := List.mem_flatMap.1 hc
  obtain ⟨y, hy, hyc⟩ := mem_storeCells hce
  exact hyc ▸ h e he y hy

theorem commitEntries_append (md : Mode) (m : Memory) (es fs : List NTEntry) :
    commitEntries md m (es ++ fs) = commitEntries md (commitEntries md m es) fs := by
  simp only [commitEntries_eq, List.flatMap_append, writeCells_append]

theorem drainStores_append (md : Mode) (m : Memory) (es fs : List BufferedStore) :
    drainStores md m (es ++ fs) = drainStores md (drainStores md m es) fs := by
  simp only [drainStores_eq, List.flatMap_append, writeCells_append]

theorem littleEndian_length (n : Nat) (v : Word) : (littleEndian n v).length = n := by simp [littleEndian]

/-- Byte `k` in memory order is `v[8k+7 : 8k]` (R41). -/
theorem littleEndian_getElem? {n : Nat} (v : Word) {k : Nat} (h : k < n) :
    (littleEndian n v)[k]? = some (v.extractLsb' (8 * k) 8) := by simp [littleEndian, h]

/-- A stored lane reads back byte by byte: byte `k` is `v[8k+7 : 8k]` (R41). -/
theorem Memory.read_writeBytes_littleEndian (md : Mode) (m : Memory) (a : Addr) (v : Word) {n k : Nat} (hn : n ≤ 2 ^ 32)
    (hk : k < n) :
    (m.writeBytes md a (littleEndian n v)).read (wrap md (a + BitVec.ofNat 64 k)).toNat = v.extractLsb' (8 * k) 8 :=
  Option.some.inj ((Memory.read_writeBytes_same md m a (by rwa [littleEndian_length]) (by rwa [littleEndian_length])).trans
    (littleEndian_getElem? v hk))

@[simp] theorem Memory.readAll_length (m : Memory) (as : List Addr) : (m.readAll as).length = as.length := by
  simp [Memory.readAll]

/-- Byte `k` of an access is the byte at address `a + k` (R41). -/
theorem Memory.readAll_byteAddrs_getElem? (m : Memory) (md : Mode) (a : Addr) {n k : Nat} (h : k < n) :
    (m.readAll (byteAddrs md a n))[k]? = some (m.read (wrap md (a + BitVec.ofNat 64 k)).toNat) := by
  simp [Memory.readAll, byteAddrs, h]

/-- A copied byte reads as in the source, and every other as before. -/
theorem copyBytes_read (src dst : Memory) (as : List Addr) (x : Nat) :
    (copyBytes src dst as).read x = if x ∈ as.map BitVec.toNat then src.read x else dst.read x := by
  induction as generalizing dst with
  | nil => rfl
  | cons a as ih =>
    rw [copyBytes, ih, List.map_cons]
    by_cases hx : x ∈ as.map BitVec.toNat
    · rw [if_pos hx, if_pos (List.mem_cons_of_mem _ hx)]
    · rw [if_neg hx]
      by_cases ha : a.toNat = x
      · subst ha; rw [Memory.read_write_same, if_pos List.mem_cons_self]
      · rw [Memory.read_write_other _ _ ha, if_neg (by simp [hx, Ne.symm ha])]

end Sys2Proof.Machine
end

