-- ==== Sys2Proof/Laws/Ops.lean ====
section
/-! SUPPORT. What each shared operation can do, said once: the checks, the ends of a step, the three instruction shapes and the step. -/

namespace Sys2Proof.Machine

/-! ### Completing a step -/

@[simp] theorem State.complete_nil (s t : State) : s.complete [] t = .next t := rfl

@[simp] theorem State.complete_none (s t : State) (cs : List (Option Fault)) :
    s.complete (none :: cs) t = s.complete cs t := rfl

@[simp] theorem State.complete_some (s t : State) (f : Fault) (cs : List (Option Fault)) :
    s.complete (some f :: cs) t = .fault f := rfl

/-- A step completes just where no check applies. -/
theorem State.complete_eq_next {s t u : State} {cs : List (Option Fault)} :
    s.complete cs t = .next u ↔ (∀ c ∈ cs, c = none) ∧ t = u := by
  induction cs with
  | nil => simp
  | cons c cs ih => cases c <;> simp [ih]

/-- A step that faults raises the first check that applies. -/
theorem State.complete_eq_fault {s t : State} {cs : List (Option Fault)} {f : Fault} :
    s.complete cs t = .fault f ↔ cs.findSome? id = some f := by
  induction cs with
  | nil => simp
  | cons c cs ih => cases c <;> simp [ih]

theorem State.complete_ne_refused {s t : State} {cs : List (Option Fault)} {r : Refusal} :
    s.complete cs t ≠ .refused r := by
  induction cs with
  | nil => simp
  | cons c cs ih => cases c <;> simp [ih]

/-! ### The checks -/

theorem State.missingSse4a_eq_none {s : State} {i : Instr} :
    s.missingSse4a i = none ↔ s.platform.capSse4a = true := by simp [State.missingSse4a]

theorem State.missingFence_eq_none {s : State} {i : Instr} :
    s.missingFence i = none ↔ s.platform.capFence = true := by simp [State.missingFence]

theorem State.unwritten_eq_none {s : State} {i : XReg} {l : LaneNo} :
    s.unwritten i l = none ↔ (s.lane i l).written = true := by simp [State.unwritten]

theorem State.badRange_eq_none {s : State} {op : Op} {c : Word} :
    s.badRange op c = none ↔ (decodeDesc c).valid = true ∨ s.platform.bfRange = .draw := by
  simp only [State.badRange]
  split
  · simp [*]
  · cases h : s.platform.bfRange <;> simp_all

theorem State.badAddress_eq_none {s : State} {op : Op} {ea : Addr} {n : Nat} :
    s.badAddress op ea n = none ↔ s.cur.validWrite ea n = true := by simp [State.badAddress]

theorem State.badAlignment_eq_none {s : State} {op : Op} {ea : Addr} {n : Nat} :
    s.badAlignment op ea n = none ↔ ea.toNat % n = 0 ∨ s.platform.misalignedNt = .perform := by
  simp only [State.badAlignment]
  split
  · simp [*]
  · cases h : s.platform.misalignedNt <;> simp_all

theorem State.mem_allPending {s : State} {x : Addr} :
    x ∈ s.allPending ↔ ∃ t ∈ s.threads, x ∈ t.pendingBytes s.mode := by simp [State.allPending]

/-- There is no owner just where the bytes do not meet `AllPending`. -/
theorem State.ownerOf_eq_none {s : State} {B : List Addr} :
    s.ownerOf B = none ↔ ∀ a ∈ B, a ∉ s.allPending := by
  simp only [State.ownerOf, Option.map_eq_none_iff, List.find?_eq_none, List.any_eq_true, decide_eq_true_eq,
    State.mem_allPending]
  exact ⟨fun h a ha ⟨t, ht, hta⟩ => h t ht ⟨a, ha, hta⟩, fun h t ht ⟨a, ha, hta⟩ => h a ha ⟨t, ht, hta⟩⟩

/-- An owner is a thread that holds one of the bytes (R132). -/
theorem State.ownerOf_eq_some {s : State} {B : List Addr} {o : Nat} (h : s.ownerOf B = some o) :
    ∃ t ∈ s.threads, t.id = o ∧ ∃ a ∈ B, a ∈ t.pendingBytes s.mode := by
  simp only [State.ownerOf, Option.map_eq_some_iff] at h
  obtain ⟨t, ht, rfl⟩ := h
  refine ⟨t, List.mem_of_find?_eq_some ht, rfl, ?_⟩
  simpa using List.find?_some ht

theorem State.unfenced_eq_none {s : State} {access : Access} {addr : Addr} {n : Nat} :
    s.unfenced access addr n = none ↔ ∀ a ∈ byteAddrs s.mode addr n, a ∉ s.allPending := by
  simp [State.unfenced, State.ownerOf_eq_none]

theorem State.unfenced_eq_some {s : State} {access : Access} {addr : Addr} {n : Nat}
    (h : ∃ a ∈ byteAddrs s.mode addr n, a ∈ s.allPending) :
    ∃ o, s.ownerOf (byteAddrs s.mode addr n) = some o ∧
      s.unfenced access addr n = some (.unfencedAccess s.cur.id s.cur.pc access addr n o) := by
  cases ho : s.ownerOf (byteAddrs s.mode addr n) with
  | none => obtain ⟨a, ha, hp⟩ := h; exact absurd hp (State.ownerOf_eq_none.1 ho a ha)
  | some o => exact ⟨o, rfl, by simp [State.unfenced, ho]⟩

/-! ### The three instruction shapes -/

/-- How many draws lane 0 takes: none for a valid descriptor, one under the policy `Draw` (R102). -/
def laneDraws (c : Word) : Nat := if (decodeDesc c).valid then 0 else 1

/-- The value of lane 0 (R100, R102, R110). -/
def laneValue (s : State) (c : Word) (f : Nat → Nat → Word) : Word :=
  if (decodeDesc c).valid then f (decodeDesc c).len (decodeDesc c).idx else Config.draw s.draws

/-- The state a bit-field instruction leaves. -/
def fieldState (s : State) (i : Instr) (d : XReg) (c : Word) (f : Nat → Nat → Word) : State :=
  ({ s with draws := s.draws + laneDraws c + 1 }.setX d (Config.draw (s.draws + laneDraws c)) (laneValue s c f)).advance
    i.length

theorem State.finishField_eq (s : State) (i : Instr) (d : XReg) (c : Word) (f : Nat → Nat → Word) :
    State.finishField (s.fieldResult c f) i d = fieldState s i d c f := by
  simp only [State.finishField, State.fieldResult, fieldState, laneDraws, laneValue, State.draw64]
  split <;> rfl

/-- When a bit-field instruction completes, and with what. -/
theorem State.bitField_eq_next {s t : State} {i : Instr} {d : XReg} {reads : List (XReg × LaneNo)} {c : Word}
    {f : Nat → Nat → Word} :
    s.bitField i d reads c f = .next t ↔
      (s.platform.capSse4a = true ∧ (∀ r ∈ reads, (s.lane r.1 r.2).written = true) ∧
        ((decodeDesc c).valid = true ∨ s.platform.bfRange = .draw)) ∧ fieldState s i d c f = t := by
  rw [State.bitField, State.complete_eq_next, State.finishField_eq]
  simp only [List.cons_append, List.mem_cons, List.mem_append, List.mem_map, List.not_mem_nil, or_false,
    forall_eq_or_imp, State.missingSse4a_eq_none]
  refine and_congr_left' (and_congr_right' ⟨fun h => ⟨fun r hr => ?_, ?_⟩, ?_⟩)
  · exact State.unwritten_eq_none.1 (h _ (.inl ⟨r, hr, rfl⟩))
  · exact State.badRange_eq_none.1 (h _ (.inr rfl))
  · rintro ⟨hr, hv⟩ c' (⟨r, hmem, rfl⟩ | rfl)
    · exact State.unwritten_eq_none.2 (hr r hmem)
    · exact State.badRange_eq_none.2 hv

/-- The state a streaming store leaves. -/
def storeState (s : State) (i : Instr) (n : Nat) (b : GReg) (disp : Disp) (y : XReg) : State :=
  (s.appendEntry (storeEntry (s.effectiveAddress b disp) n (s.lane y .lane0).val)).advance i.length

/-- When a streaming store completes, and with what. -/
theorem State.streamStore_eq_next {s t : State} {i : Instr} {n : Nat} {b : GReg} {disp : Disp} {y : XReg} :
    s.streamStore i n b disp y = .next t ↔
      (s.platform.capSse4a = true ∧ (s.lane y .lane0).written = true ∧
        s.cur.validWrite (s.effectiveAddress b disp) n = true ∧
        ((s.effectiveAddress b disp).toNat % n = 0 ∨ s.platform.misalignedNt = .perform) ∧
        ∀ a ∈ byteAddrs s.mode (s.effectiveAddress b disp) n, a ∉ s.allPending) ∧
      storeState s i n b disp y = t := by
  simp only [State.streamStore, State.complete_eq_next, List.mem_cons, List.not_mem_nil, or_false, forall_eq_or_imp,
    forall_eq, State.missingSse4a_eq_none, State.unwritten_eq_none, State.badAddress_eq_none, State.badAlignment_eq_none,
    State.unfenced_eq_none, storeState]

/-- The state SFENCE leaves. -/
def fenceState (s : State) : State := (s.storeBarrier.commitPending.record (.fence s.cur.id)).advance 3

/-- When SFENCE completes, and with what. -/
theorem execSfence_eq_next {s t : State} : execSfence s = .next t ↔ s.platform.capFence = true ∧ fenceState s = t := by
  simp [execSfence, State.complete_eq_next, State.missingFence_eq_none, fenceState, Instr.length]

/-! ### The step -/

/-- A running machine with nothing in its agenda issues. -/
theorem step_nil {s : State} (hr : s.running) (ha : s.agenda = []) : step s = issue s := by
  unfold step
  split <;> simp_all

/-- A running machine issues where the agenda says so. -/
theorem step_issue {s : State} {rest : List Turn} (hr : s.running) (ha : s.agenda = .issue :: rest) :
    step s = issue { s with agenda := rest } := by
  unfold step
  split <;> simp_all

/-- A running machine does what the host does next. -/
theorem step_host {s : State} {act : HostAct} {rest : List Turn} (hr : s.running) (ha : s.agenda = .host act :: rest) :
    step s = hostAct act { s with agenda := rest } := by
  unfold step
  split <;> simp_all

/-- What an instruction can do, if it answers a next state. -/
theorem exec_next_cases {i : Instr} {s t : State} (h : exec i s = .next t) :
    (∃ d c f, (i.op = .extrq ∨ i.op = .insertq) ∧ t = fieldState s i d c f) ∨
      (∃ n b disp y, (n = 8 ∧ i.op = .movntsd ∨ n = 4 ∧ i.op = .movntss) ∧
        s.cur.validWrite (s.effectiveAddress b disp) n = true ∧
        ((s.effectiveAddress b disp).toNat % n = 0 ∨ s.platform.misalignedNt = .perform) ∧
        (∀ a ∈ byteAddrs s.mode (s.effectiveAddress b disp) n, a ∉ s.allPending) ∧ t = storeState s i n b disp y) ∨
      i = .sfence ∧ t = fenceState s := by
  cases i with
  | extrq rex d y => exact .inl ⟨_, _, _, .inl rfl, (State.bitField_eq_next.1 h).2.symm⟩
  | insertq rex d y => exact .inl ⟨_, _, _, .inr rfl, (State.bitField_eq_next.1 h).2.symm⟩
  | movntsd rex b disp y =>
    obtain ⟨⟨-, -, hv, ha, hp⟩, rfl⟩ := State.streamStore_eq_next.1 h
    exact .inr (.inl ⟨8, b, disp, y, .inl ⟨rfl, rfl⟩, hv, ha, hp, rfl⟩)
  | movntss rex b disp y =>
    obtain ⟨⟨-, -, hv, ha, hp⟩, rfl⟩ := State.streamStore_eq_next.1 h
    exact .inr (.inl ⟨4, b, disp, y, .inr ⟨rfl, rfl⟩, hv, ha, hp, rfl⟩)
  | sfence => exact .inr (.inr ⟨rfl, (execSfence_eq_next.1 h).2.symm⟩)

/-- No instruction is refused. -/
theorem exec_ne_refused {i : Instr} {s : State} {r : Refusal} : exec i s ≠ .refused r := by
  cases i <;> exact State.complete_ne_refused

/-- What a step can do, if it answers a next state: the turn of a thread that has ended passes, an instruction is fetched and
executed, or the host acts. -/
theorem step_next_cases {s t : State} (h : step s = .next t) :
    s.running ∧ ∃ u, (∃ rest, u = { s with agenda := rest }) ∧
      (u.cur.ended = true ∧ t = u ∨ (u.cur.ended = false ∧ ∃ i, u.fetch = .instr i ∧ exec i u = .next t) ∨
        ∃ act, hostAct act u = .next t) := by
  have issued : ∀ u : State, issue u = .next t → (u.cur.ended = true ∧ t = u ∨
      (u.cur.ended = false ∧ ∃ i, u.fetch = .instr i ∧ exec i u = .next t)) := by
    intro u hu
    simp only [issue] at hu
    split at hu
    · next he => cases hu; exact .inl ⟨he, rfl⟩
    · next he =>
      refine .inr ⟨by simpa using he, ?_⟩
      split at hu
      · next i hi => exact ⟨i, hi, hu⟩
      · next o ho =>
        exfalso
        subst hu
        simp only [State.fetch, State.raise] at ho
        split at ho
        · cases ho
        · cases ho
        · split at ho <;> cases ho
        · cases ho
  unfold step at h
  split at h
  · cases h
  · cases h
  · next hr hf ha =>
    exact ⟨⟨hr, hf⟩, s, ⟨s.agenda, rfl⟩, (issued s h).elim .inl (fun h => .inr (.inl h))⟩
  · next rest hr hf ha =>
    exact ⟨⟨hr, hf⟩, _, ⟨rest, rfl⟩, (issued _ h).elim .inl (fun h => .inr (.inl h))⟩
  · next act rest hr hf ha => exact ⟨⟨hr, hf⟩, _, ⟨rest, rfl⟩, .inr (.inr ⟨act, h⟩)⟩

end Sys2Proof.Machine
end

