-- ==== Sys2Proof/Laws/Fetch.lean ====
section
/-! SUPPORT. The fetch: bytes that stand at an address are fetched, and the agenda and the program's other state do not matter to it. -/

namespace Sys2Proof.Machine

theorem byteAddrs_one (md : Mode) (a : Addr) : byteAddrs md a 1 = [wrap md a] := by simp [byteAddrs]

/-- A byte that is not pending does not stop the fetch. -/
theorem State.unfenced_fetch_eq_none {s : State} {a : Addr} (h : wrap s.mode a ∉ s.allPending) :
    s.unfenced .fetch a 1 = none := State.unfenced_eq_none.2 (by simpa [byteAddrs_one] using h)

/-- A pending byte stops the fetch with `UnfencedAccess` (R50, R57). -/
theorem State.unfenced_fetch_pending {s : State} {a : Addr} (h : wrap s.mode a ∈ s.allPending) :
    ∃ o, s.ownerOf (byteAddrs s.mode a 1) = some o ∧
      s.unfenced .fetch a 1 = some (.unfencedAccess s.cur.id s.cur.pc .fetch a 1 o) :=
  State.unfenced_eq_some ⟨wrap s.mode a, by simp [byteAddrs_one], h⟩

/-- Bytes that stand from `a` on are fetched, and the fetch goes on behind them. -/
theorem State.fetchBytes_stand {s : State} {bs : List Byte} {n fuel : Nat} {a : Addr} (ha : wrap s.mode a = a)
    (hn : n ≤ fuel) (hl : n ≤ bs.length)
    (h : ∀ k < n, wrap s.mode (a + BitVec.ofNat 64 k) ∉ s.allPending ∧
      some (s.fetchView.read (wrap s.mode (a + BitVec.ofNat 64 k)).toNat) = bs[k]?) :
    s.fetchBytes fuel a =
      (bs.take n ++ (s.fetchBytes (fuel - n) (wrap s.mode (a + BitVec.ofNat 64 n))).1,
        (s.fetchBytes (fuel - n) (wrap s.mode (a + BitVec.ofNat 64 n))).2) := by
  induction n generalizing fuel a bs with
  | zero => simp [ha]
  | succ n ih =>
    obtain ⟨fuel, rfl⟩ : ∃ f, fuel = f + 1 := ⟨fuel - 1, by omega⟩
    obtain ⟨b, bs, rfl⟩ := List.exists_cons_of_length_pos (l := bs) (by omega)
    have h0 := h 0 (by omega)
    simp only [BitVec.add_zero, ha, List.getElem?_cons_zero, Option.some.injEq] at h0
    have stop : s.unfenced .fetch a 1 = none := State.unfenced_fetch_eq_none (by rw [ha]; exact h0.1)
    have next := ih (bs := bs) (fuel := fuel) (a := wrap s.mode (a + 1)) (wrap_wrap _ _) (by omega)
      (by simpa using hl) (fun k hk => by
        have := h (k + 1) (by omega)
        rwa [← addr_succ, ← wrap_add_left, List.getElem?_cons_succ] at this)
    simp only [State.fetchBytes, stop, h0.2, next, wrap_add_left, addr_succ, Nat.add_sub_add_right,
      List.take_succ_cons, List.cons_append]

/-- The fetch at the pc depends on the agenda in nothing. -/
theorem State.fetch_agenda (s : State) (rest : List Turn) : ({ s with agenda := rest } : State).fetch = s.fetch := by
  have bytes : ∀ (k : Nat) (a : Addr), State.fetchBytes { s with agenda := rest } k a = s.fetchBytes k a := by
    intro k
    induction k with
    | zero => intro a; rfl
    | succ k ih => intro a; simp only [State.fetchBytes, ih]; rfl
  simp only [State.fetch, bytes]
  rfl

end Sys2Proof.Machine
end

