-- ==== Sys2Proof/Laws/Host.lean ====
section
/-! SUPPORT. What a host action can do, said once, and how threads are found after it. -/

namespace Sys2Proof.Machine

/-- What a host action can do, if it answers a next state: it turns to another thread, it drains a buffered store, or it keeps
the other threads, the parameters and every pending entry, and the invariants of the current thread and of memory. -/
theorem hostAct_next_cases {act : HostAct} {s t : State} (h : hostAct act s = .next t) :
    (∃ a u, act = .switch a ∧ s.others.find? (fun t => t.id == a) = some u ∧
      t = { s with cur := u, others := s.cur :: s.others.eraseP fun t => t.id == a }) ∨
    (∃ a u e rest, act = .drain a ∧ s.findThread a = some u ∧ u.storeBuf = e :: rest ∧
      t = { s with mem := s.mem.writeBytes s.mode e.addr e.bytes }.modifyThread a fun t => { t with storeBuf := rest }) ∨
    (t.platform = s.platform ∧ t.others = s.others ∧ t.faults = s.faults ∧ t.cur.id = s.cur.id ∧ t.cur.nt = s.cur.nt ∧
      t.cur.windows = s.cur.windows ∧ (s.mem.wf → t.mem.wf) ∧ (s.cur.imem.wf → t.cur.imem.wf) ∧
      (wrap s.mode s.cur.pc = s.cur.pc → wrap s.mode t.cur.pc = t.cur.pc) ∧
      ((∀ r, wrap s.mode (s.cur.g.get r) = s.cur.g.get r) → ∀ r, wrap s.mode (t.cur.g.get r) = t.cur.g.get r)) := by
  cases act with
  | switch a =>
    simp only [hostAct, hostSwitch] at h
    split at h
    · cases h; exact .inr (.inr ⟨rfl, rfl, rfl, rfl, rfl, rfl, id, id, id, id⟩)
    · split at h
      · next u hu => cases h; exact .inl ⟨a, u, rfl, hu, rfl⟩
      · cases h
  | load addr n =>
    obtain ⟨-, rfl⟩ := State.complete_eq_next.1 h
    exact .inr (.inr ⟨rfl, rfl, rfl, rfl, rfl, rfl, id, id, id, id⟩)
  | store addr bytes =>
    obtain ⟨-, rfl⟩ := State.complete_eq_next.1 h
    cases s.platform.ordinaryMM
    · exact .inr (.inr ⟨rfl, rfl, rfl, rfl, rfl, rfl, fun h => Memory.wf_writeBytes _ h _ _, id, id, id⟩)
    · exact .inr (.inr ⟨rfl, rfl, rfl, rfl, rfl, rfl, id, id, id, id⟩)
  | drain a =>
    simp only [hostAct, hostDrain] at h
    split at h
    · cases h
    · next u hu =>
      split at h
      · cases h; exact .inr (.inr ⟨rfl, rfl, rfl, rfl, rfl, rfl, id, id, id, id⟩)
      · next e rest he => cases h; exact .inr (.inl ⟨a, u, e, rest, rfl, hu, he, rfl⟩)
  | syncFetch addr n => cases h; exact .inr (.inr ⟨rfl, rfl, rfl, rfl, rfl, rfl, id, fun h => wf_copyBytes h _, id, id⟩)
  | writeX i v => cases h; exact .inr (.inr ⟨rfl, rfl, rfl, rfl, rfl, rfl, id, id, id, id⟩)
  | writeG r v =>
    cases h
    refine .inr (.inr ⟨rfl, rfl, rfl, rfl, rfl, rfl, id, id, id, fun h q => ?_⟩)
    rw [get_set_reg]
    split
    · rw [wrap_wrap]
    · exact h q
  | jump pc => cases h; exact .inr (.inr ⟨rfl, rfl, rfl, rfl, rfl, rfl, id, id, fun _ => wrap_wrap _ _, id⟩)
  | endRun =>
    obtain ⟨-, rfl⟩ := State.complete_eq_next.1 h
    exact .inr (.inr ⟨rfl, rfl, rfl, rfl, rfl, rfl, id, id, id, id⟩)
  | read addr n =>
    obtain ⟨-, rfl⟩ := State.complete_eq_next.1 h
    exact .inr (.inr ⟨rfl, rfl, rfl, rfl, rfl, rfl, id, id, id, id⟩)

theorem eraseP_perm {α : Type} {p : α → Bool} {l : List α} {u : α} (h : l.find? p = some u) : (u :: l.eraseP p).Perm l := by
  induction l with
  | nil => cases h
  | cons a l ih =>
    by_cases ha : p a
    · rw [List.find?_cons_of_pos ha] at h; cases h; rw [List.eraseP_cons_of_pos ha]
    · rw [List.find?_cons_of_neg ha] at h
      rw [List.eraseP_cons_of_neg ha]
      exact (List.Perm.swap _ _ _).trans ((ih h).cons _)

/-- Turning to another thread keeps the threads (R178). -/
theorem switch_perm {s : State} {a : Nat} {u : Thread} (h : s.others.find? (fun t => t.id == a) = some u) :
    (u :: s.cur :: s.others.eraseP fun t => t.id == a).Perm s.threads :=
  (List.Perm.swap _ _ _).trans ((eraseP_perm h).cons _)

/-- Changing one thread keeps what a thread is found to hold, where the change keeps it. -/
theorem find_map_thread {α : Type} (l : List Thread) {g : Thread → Thread} (hg : ∀ t, (g t).id = t.id) {f : Thread → α}
    (hf : ∀ t, f (g t) = f t) (a : Nat) :
    ((l.map g).find? fun t => t.id == a).map f = (l.find? fun t => t.id == a).map f := by
  induction l with
  | nil => rfl
  | cons c l ih =>
    simp only [List.map_cons, List.find?_cons, hg]
    cases c.id == a
    · exact ih
    · simp [hf]

end Sys2Proof.Machine
end

