-- ==== Sys2Proof/Laws/Instr.lean ====
section
/-! SUPPORT. When each instruction completes, and the lanes and the record after it. -/

namespace Sys2Proof.Machine

/-- EXTRQ completes just where the capability, its two lanes and the range allow it (R100). -/
theorem exec_extrq_eq_next {rex : Bool} {d y : XReg} {s t : State} :
    exec (.extrq rex d y) s = .next t ↔
      (s.platform.capSse4a = true ∧ ((s.lane d .lane0).written = true ∧ (s.lane y .lane0).written = true) ∧
        ((decodeDesc (s.lane y .lane0).val).valid = true ∨ s.platform.bfRange = .draw)) ∧
      fieldState s (.extrq rex d y) d (s.lane y .lane0).val (extractField (s.lane d .lane0).val) = t := by
  show execExtrq rex d y s = .next t ↔ _
  rw [execExtrq, State.bitField_eq_next]
  simp

/-- INSERTQ completes just where the capability, its three lanes and the range allow it (R110). -/
theorem exec_insertq_eq_next {rex : Bool} {d y : XReg} {s t : State} :
    exec (.insertq rex d y) s = .next t ↔
      (s.platform.capSse4a = true ∧
        ((s.lane d .lane0).written = true ∧ (s.lane y .lane0).written = true ∧ (s.lane y .lane1).written = true) ∧
        ((decodeDesc (s.lane y .lane1).val).valid = true ∨ s.platform.bfRange = .draw)) ∧
      fieldState s (.insertq rex d y) d (s.lane y .lane1).val
        (insertField (s.lane d .lane0).val (s.lane y .lane0).val) = t := by
  show execInsertq rex d y s = .next t ↔ _
  rw [execInsertq, State.bitField_eq_next]
  simp

/-- MOVNTSD completes just where the capability, its lane, its address and the pending bytes allow it (R132, R133). -/
theorem exec_movntsd_eq_next {rex : Bool} {b : GReg} {disp : Disp} {y : XReg} {s t : State} :
    exec (.movntsd rex b disp y) s = .next t ↔
      (s.platform.capSse4a = true ∧ (s.lane y .lane0).written = true ∧
        s.cur.validWrite (s.effectiveAddress b disp) 8 = true ∧
        ((s.effectiveAddress b disp).toNat % 8 = 0 ∨ s.platform.misalignedNt = .perform) ∧
        ∀ a ∈ byteAddrs s.mode (s.effectiveAddress b disp) 8, a ∉ s.allPending) ∧
      storeState s (.movntsd rex b disp y) 8 b disp y = t := State.streamStore_eq_next

/-- MOVNTSS completes just where the capability, its lane, its address and the pending bytes allow it (R132, R138). -/
theorem exec_movntss_eq_next {rex : Bool} {b : GReg} {disp : Disp} {y : XReg} {s t : State} :
    exec (.movntss rex b disp y) s = .next t ↔
      (s.platform.capSse4a = true ∧ (s.lane y .lane0).written = true ∧
        s.cur.validWrite (s.effectiveAddress b disp) 4 = true ∧
        ((s.effectiveAddress b disp).toNat % 4 = 0 ∨ s.platform.misalignedNt = .perform) ∧
        ∀ a ∈ byteAddrs s.mode (s.effectiveAddress b disp) 4, a ∉ s.allPending) ∧
      storeState s (.movntss rex b disp y) 4 b disp y = t := State.streamStore_eq_next

/-- SFENCE completes just where its capability is present (R151). -/
theorem exec_sfence_eq_next {s t : State} :
    exec .sfence s = .next t ↔ s.platform.capFence = true ∧ fenceState s = t := execSfence_eq_next

/-- A lane of a register after a bit-field instruction. -/
theorem fieldState_lane (s : State) (i : Instr) (d r : XReg) (c : Word) (f : Nat → Nat → Word) (l : LaneNo) :
    (fieldState s i d c f).lane r l =
      if r = d then ((s.cur.x.get d).wrote (Config.draw (s.draws + laneDraws c)) (laneValue s c f)).lane l
      else s.lane r l := by
  show State.lane (State.setX { s with draws := s.draws + laneDraws c + 1 } d _ _) r l = _
  rw [State.lane, State.setX_get]
  split <;> rfl

theorem fieldState_lane0 (s : State) (i : Instr) (d : XReg) (c : Word) (f : Nat → Nat → Word) :
    (fieldState s i d c f).lane d .lane0 = { val := laneValue s c f, written := true } := by
  rw [fieldState_lane, if_pos rfl]; rfl

theorem fieldState_lane1 (s : State) (i : Instr) (d : XReg) (c : Word) (f : Nat → Nat → Word) :
    (fieldState s i d c f).lane d .lane1 = { val := Config.draw (s.draws + laneDraws c), written := true } := by
  rw [fieldState_lane, if_pos rfl]; rfl

/-- Recording a fault changes the fault record alone (R160). -/
@[simp] theorem State.recordFault_cur (s : State) (f : Fault) : (s.recordFault f).cur = s.cur := by
  unfold State.recordFault; split <;> rfl

@[simp] theorem State.settle_fault (s : State) (f : Fault) : s.settle (.fault f) = s.recordFault f := rfl
@[simp] theorem State.settle_next (s t : State) : s.settle (.next t) = t := rfl
@[simp] theorem State.settle_refused (s : State) (r : Refusal) : s.settle (.refused r) = s.markRefused r := rfl

end Sys2Proof.Machine
end

