-- ==== Sys2Proof/Laws/PerInstr.lean ====
section
/-! SUPPORT. A family of laws about every instruction as syntax: its encoding has the length that R86 gives it. -/

namespace Sys2Proof.Laws.EncodingLength

/-- The bytes of the instruction are as many as its length, which is at least 3 and at most 9 (R86). -/
def Statement (i : Sys2Proof.Instr) : Prop :=
  (Sys2Proof.encode i).length = i.length ∧ 3 ≤ i.length ∧ i.length ≤ Sys2Proof.maxLength

theorem rexBytes_length (rex : Bool) (reg rm : Fin 16) : (Sys2Proof.rexBytes rex reg rm).length = rex.toNat := by
  cases rex <;> rfl

theorem dispBytes_length (disp : Sys2Proof.Disp) : disp.bytes.length = disp.length := by cases disp <;> rfl

theorem encodeRR_length (p : Sys2Proof.Byte) (rex : Bool) (d s : Sys2Proof.XReg) :
    (Sys2Proof.encodeRR p rex d s).length = 4 + rex.toNat := by
  simp [Sys2Proof.encodeRR, rexBytes_length]; omega

theorem encodeM_length (p : Sys2Proof.Byte) (rex : Bool) (b : Sys2Proof.GReg) (disp : Sys2Proof.Disp)
    (s : Sys2Proof.XReg) : (Sys2Proof.encodeM p rex b disp s).length = 4 + rex.toNat + disp.length := by
  simp [Sys2Proof.encodeM, rexBytes_length, dispBytes_length]; omega

theorem rex_le (rex : Bool) : rex.toNat ≤ 1 := by cases rex <;> decide
theorem disp_le (disp : Sys2Proof.Disp) : disp.length ≤ 4 := by cases disp <;> simp [Sys2Proof.Disp.length]

theorem extrq (rex : Bool) (d s : Sys2Proof.XReg) : Statement (.extrq rex d s) := by
  have := rex_le rex
  refine ⟨encodeRR_length _ rex d s, ?_, ?_⟩ <;> simp only [Sys2Proof.Instr.length, Sys2Proof.maxLength] <;> omega

theorem insertq (rex : Bool) (d s : Sys2Proof.XReg) : Statement (.insertq rex d s) := by
  have := rex_le rex
  refine ⟨encodeRR_length _ rex d s, ?_, ?_⟩ <;> simp only [Sys2Proof.Instr.length, Sys2Proof.maxLength] <;> omega

theorem movntsd (rex : Bool) (b : Sys2Proof.GReg) (disp : Sys2Proof.Disp) (s : Sys2Proof.XReg) :
    Statement (.movntsd rex b disp s) := by
  have := rex_le rex
  have := disp_le disp
  refine ⟨encodeM_length _ rex b disp s, ?_, ?_⟩ <;> simp only [Sys2Proof.Instr.length, Sys2Proof.maxLength] <;> omega

theorem movntss (rex : Bool) (b : Sys2Proof.GReg) (disp : Sys2Proof.Disp) (s : Sys2Proof.XReg) :
    Statement (.movntss rex b disp s) := by
  have := rex_le rex
  have := disp_le disp
  refine ⟨encodeM_length _ rex b disp s, ?_, ?_⟩ <;> simp only [Sys2Proof.Instr.length, Sys2Proof.maxLength] <;> omega

theorem sfence : Statement .sfence := by unfold Statement; decide

end Sys2Proof.Laws.EncodingLength
end

