-- ==== Sys2Proof/Machine/Assembler.lean ====
section
/-! DEFINITION. Assembler syntax, for reading only: no step uses it (30_encoding.md R87; register names of 10_state.md R20, R25). -/

namespace Sys2Proof.Machine

/-- The general registers' names in number order (R20). -/
def gregNames : Mode → List String
  | .long64 => ["rax", "rcx", "rdx", "rbx", "rsp", "rbp", "rsi", "rdi", "r8", "r9", "r10", "r11", "r12", "r13", "r14", "r15"]
  | .legacy32 => ["eax", "ecx", "edx", "ebx", "esp", "ebp", "esi", "edi"]

def gregName (m : Mode) (r : GReg) : String := (gregNames m).getD r.val "?"

/-- `xmm<i>` (R25). -/
def xregName (i : XReg) : String := "xmm" ++ toString i.val

/-- The displacement as a signed number. -/
def dispInt : Disp → Int
  | .none  => 0
  | .d8 v  => v.toInt
  | .d32 v => v.toInt

def intelMem (m : Mode) (size : String) (b : GReg) : Disp → String
  | .none => size ++ " ptr [" ++ gregName m b ++ "]"
  | disp  => size ++ " ptr [" ++ gregName m b ++ " + " ++ toString (dispInt disp) ++ "]"

/-- Intel order: destination first (R87). -/
def intelSyntax (m : Mode) : Instr → String
  | .extrq _ d s        => "extrq " ++ xregName d ++ ", " ++ xregName s
  | .insertq _ d s      => "insertq " ++ xregName d ++ ", " ++ xregName s
  | .movntsd _ b disp s => "movntsd " ++ intelMem m "qword" b disp ++ ", " ++ xregName s
  | .movntss _ b disp s => "movntss " ++ intelMem m "dword" b disp ++ ", " ++ xregName s
  | .sfence             => "sfence"

def attMem (m : Mode) (b : GReg) : Disp → String
  | .none => "(%" ++ gregName m b ++ ")"
  | disp  => toString (dispInt disp) ++ "(%" ++ gregName m b ++ ")"

/-- AT&T order: the operands reversed (R87). -/
def attSyntax (m : Mode) : Instr → String
  | .extrq _ d s        => "extrq %" ++ xregName s ++ ", %" ++ xregName d
  | .insertq _ d s      => "insertq %" ++ xregName s ++ ", %" ++ xregName d
  | .movntsd _ b disp s => "movntsd %" ++ xregName s ++ ", " ++ attMem m b disp
  | .movntss _ b disp s => "movntss %" ++ xregName s ++ ", " ++ attMem m b disp
  | .sfence             => "sfence"

end Sys2Proof.Machine
end

