-- ==== Sys2Proof/Tests/Slice0.lean ====
section
/-! SUPPORT. Tests of the model, and a witness for the hypotheses of each statement. Every expected value comes from the spec: a
vector of 95_test_vectors.md, named in the comment, or a hand calculation from the rule cited. -/

namespace Sys2Proof.Tests

open Sys2Proof.Machine Sys2Proof.Claims

/-! ### Builders and observers -/

/-- A register with both lanes written. -/
def full (hi lo : Word) : XEntry := { lane0 := { val := lo, written := true }, lane1 := { val := hi, written := true }, upper := 0 }

/-- A register with lane 0 alone written. -/
def half (lo : Word) : XEntry := { lane0 := { val := lo, written := true }, lane1 := { val := 0, written := false }, upper := 0 }

/-- Section 2.4 of the vectors: stores are valid on 1000 to 1FFF. -/
def pageWindows : List WriteWindow := [{ size := 8, first := 0x1000, last := 0x1FF8 }, { size := 4, first := 0x1000, last := 0x1FFC }]

/-- Reset with two operand registers, RAX and the windows of section 2.4. -/
def small (x0 x1 : XEntry) (rax : Word) : State :=
  { State.reset with cur := { Thread.reset with
      x := (Thread.reset.x.set 0 x0).set 1 x1, g := Thread.reset.g.set 0 rax, windows := pageWindows } }

/-- The start of section 2.4. -/
def stores : State := small (full 0xAAAAAAAAAAAAAAAA 0x1122334455667788) (full 0 0) 0x1000

/-- A pending entry of 8 bytes. -/
def entry8 : NTEntry := { addr := 0x1000, n := 8, bytes := [0x88, 0x77, 0x66, 0x55, 0x44, 0x33, 0x22, 0x11] }

/-- Two pending entries next to each other (F3). -/
def entries44 : List NTEntry :=
  [{ addr := 0x1000, n := 4, bytes := [1, 2, 3, 4] }, { addr := 0x1004, n := 4, bytes := [5, 6, 7, 8] }]

/-- A state with pending entries in the issuing thread. -/
def pend (s : State) (es : List NTEntry) : State := { s with cur := { s.cur with nt := es } }

/-- A second thread, with an entry of 4 bytes (S13). -/
def otherThread : Thread := { Thread.reset with id := 1, nt := [{ addr := 0x1000, n := 4, bytes := [1, 2, 3, 4] }], windows := pageWindows }

/-- A state with the second thread beside the first. -/
def beside (s : State) : State := { s with others := [otherThread] }

/-- A state with bytes at the pc. -/
def coded (s : State) (bs : List Byte) : State := { s with mem := s.mem.writeBytes s.mode s.cur.pc bs }

/-- A state with an agenda. -/
def due (s : State) (ts : List Turn) : State := { s with agenda := ts }

/-- A state with other parameters. -/
def under (s : State) (f : Platform → Platform) : State := { s with platform := f s.platform }

/-- The next state, where there is one. -/
def got : Host.Outcome State Fault Refusal → State
  | .next t => t
  | .fault _ => State.reset
  | .refused _ => State.reset

def runs : Host.Outcome State Fault Refusal → Bool
  | .next _ => true
  | .fault _ => false
  | .refused _ => false

def faultOf : Host.Outcome State Fault Refusal → Option Fault
  | .next _ => none
  | .fault f => some f
  | .refused _ => none

def refusalOf : Host.Outcome State Fault Refusal → Option Refusal
  | .next _ => none
  | .fault _ => none
  | .refused r => some r

theorem eq_got {o : Host.Outcome State Fault Refusal} (h : runs o = true) : o = .next (got o) := by
  cases o with
  | next t => rfl
  | fault f => cases h
  | refused r => cases h

theorem eq_fault {o : Host.Outcome State Fault Refusal} {f : Fault} (h : faultOf o = some f) : o = .fault f := by
  cases o with
  | next t => cases h
  | fault g => cases h; rfl
  | refused r => cases h

theorem meets_of {s : State} {a : Addr} {n : Nat}
    (h : ((byteAddrs s.mode a n).any fun x => decide (x ∈ s.allPending)) = true) : meetsPending s a n := by
  simpa [List.any_eq_true] using h

theorem not_meets_of {s : State} {a : Addr} {n : Nat}
    (h : ((byteAddrs s.mode a n).any fun x => decide (x ∈ s.allPending)) = false) : ¬ meetsPending s a n := by
  simpa [List.any_eq_false] using h

theorem avoids_of {l : List Addr} {x : Nat} (h : (l.all fun a => decide (a.toNat ≠ x)) = true) : ∀ a ∈ l, a.toNat ≠ x := by
  simpa [List.all_eq_true] using h

def lo0 (o : Host.Outcome State Fault Refusal) : Word := ((got o).lane 0 .lane0).val

/-! ### Instructions, two tests each -/

/-- E5: the longest field off bit 0; bit 63 of the result is zero. -/
theorem test_extrq_shifts : lo0 (exec (.extrq false 0 1) (small (full 0 0xFFFFFFFFFFFFFFFF) (half 0x013F) 0)) = 0x7FFFFFFFFFFFFFFF := by decide

/-- E12: data and descriptor are one register. -/
theorem test_extrq_same_register : lo0 (exec (.extrq false 0 0) (small (half 0x0804) (half 0) 0)) = 8 := by decide

/-- I7: the bits outside the field stay. -/
theorem test_insertq_inside : lo0 (exec (.insertq false 0 1) (small (full 0 0x0123456789ABCDEF) (full 0x2010 0xFFFF) 0)) = 0x0123FFFF89ABCDEF := by
  decide

/-- I12: every operand lane is the old register. -/
theorem test_insertq_same_register : lo0 (exec (.insertq false 0 0) (small (full 0x0804 0xFF) (half 0) 0)) = 0xFFF := by decide

/-- S1: the entry, the pc, and no byte of memory. -/
theorem test_movntsd_entry :
    (got (exec (.movntsd false 0 .none 0) stores)).cur.nt = [entry8] ∧ (got (exec (.movntsd false 0 .none 0) stores)).mem = [] ∧
      (got (exec (.movntsd false 0 .none 0) stores)).cur.pc = 4 := by decide

/-- S9: the displacement is sign-extended, and 0FF8 may not be written. -/
theorem test_movntsd_negative_displacement :
    faultOf (exec (.movntsd false 0 (.d8 0xF8) 0) stores) = some (.memoryFault 0 0 .movntsd 0x0FF8 8) := by decide

/-- S3: four bytes at an address that is 4 modulo 8, and the longer form's pc. -/
theorem test_movntss_entry :
    (got (exec (.movntss false 0 (.d8 4) 0) stores)).cur.nt = [{ addr := 0x1004, n := 4, bytes := [0x88, 0x77, 0x66, 0x55] }] ∧
      (got (exec (.movntss false 0 (.d8 4) 0) stores)).cur.pc = 5 := by decide

/-- R80 by hand: in Legacy32, FFFFFFFC + 8 wraps to 4. -/
theorem test_movntss_wraps :
    (under { stores with cur := { stores.cur with g := stores.cur.g.set 0 0xFFFFFFFC } } fun p => { p with mode := .legacy32 }).effectiveAddress
      0 (.d8 8) = 4 := by decide

/-- F3: two entries, one fence. -/
theorem test_sfence_commits :
    (got (exec .sfence (pend stores entries44))).mem =
      [(0x1000, 1), (0x1001, 2), (0x1002, 3), (0x1003, 4), (0x1004, 5), (0x1005, 6), (0x1006, 7), (0x1007, 8)] ∧
    (got (exec .sfence (pend stores entries44))).cur.pc = 3 := by decide

/-- F6: after F2 an ordinary load gives the bytes, the lowest address first. -/
theorem test_sfence_then_load :
    (got (hostLoad 0x1000 8 (got (exec .sfence (pend stores [entry8]))))).events.getLast? =
      some (.load 0 0x1000 [0x88, 0x77, 0x66, 0x55, 0x44, 0x33, 0x22, 0x11]) := by decide

/-- R29 by hand: a load at an address that nothing has written completes, and writing what it holds lists nothing. -/
theorem test_memory_total :
    faultOf (hostLoad 0x2000 4 stores) = none ∧ Memory.write [(5, 1), (6, 2)] 5 0 = [(6, 2)] ∧ Memory.write [(6, 2)] 5 1 = [(5, 1), (6, 2)] := by
  decide

/-! ### Descriptors -/

/-- D-1, D-4, D-5, D-6, D-7, D-8, D-13, D-16. -/
theorem test_descriptors :
    decodeDesc 0 = { len := 64, idx := 0, valid := true } ∧
    decodeDesc 0x0100 = { len := 64, idx := 1, valid := false } ∧
    decodeDesc 0x3F01 = { len := 1, idx := 63, valid := true } ∧
    decodeDesc 0x3F02 = { len := 2, idx := 63, valid := false } ∧
    decodeDesc 0x013F = { len := 63, idx := 1, valid := true } ∧
    decodeDesc 0x023F = { len := 63, idx := 2, valid := false } ∧
    decodeDesc 0xFFFFFFFFFFFFC8C4 = { len := 4, idx := 8, valid := true } ∧
    decodeDesc 0x0500 = { len := 64, idx := 5, valid := false } := by decide

/-! ### Well-formedness -/

/-- One ill-formed instruction for each check, beside a well-formed neighbour. -/
theorem test_wellFormed_refuses :
    (Instr.extrq false 8 0).wellFormed .long64 = false ∧ (Instr.extrq true 8 0).wellFormed .long64 = true ∧
    (Instr.extrq false 0 8).wellFormed .long64 = false ∧ (Instr.insertq true 0 1).wellFormed .legacy32 = false ∧
    (Instr.insertq false 0 1).wellFormed .legacy32 = true ∧ (Instr.movntsd false 0 .none 8).wellFormed .long64 = false ∧
    (Instr.movntsd false 4 .none 0).wellFormed .long64 = false ∧ (Instr.movntsd false 5 .none 0).wellFormed .long64 = false ∧
    (Instr.movntsd false 5 (.d8 0) 0).wellFormed .long64 = true ∧ (Instr.movntss false 4 (.d8 0) 0).wellFormed .long64 = false ∧
    (Instr.movntss true 12 (.d32 0) 0).wellFormed .long64 = false ∧ (Instr.movntss true 13 .none 0).wellFormed .long64 = false := by
  decide

/-! ### Decoding: words written out from 30_encoding.md -/

/-- `66 0F 79 /r`: X1 in both modes, X3 with REX 0100 0 1 0 1 and ModRM 11 000 001. -/
theorem test_decode_extrq :
    decode .long64 [0x66, 0x0F, 0x79, 0xC2] = .ok (.extrq false 0 2) ∧
    decode .legacy32 [0x66, 0x0F, 0x79, 0xC2] = .ok (.extrq false 0 2) ∧
    decode .long64 [0x66, 0b01000101, 0x0F, 0x79, 0b11000001] = .ok (.extrq true 8 9) := by decide

/-- `F2 0F 79 /r`: X2, and X4 with REX 0100 0 1 0 0 and ModRM 11 000 111. -/
theorem test_decode_insertq :
    decode .long64 [0xF2, 0x0F, 0x79, 0xC1] = .ok (.insertq false 0 1) ∧
    decode .long64 [0xF2, 0b01000100, 0x0F, 0x79, 0b11000111] = .ok (.insertq true 8 7) := by decide

/-- `F2 0F 2B /r`: X5, and X7 with ModRM 10 000 000 and a little-endian disp32. -/
theorem test_decode_movntsd :
    decode .long64 [0xF2, 0x0F, 0x2B, 0x00] = .ok (.movntsd false 0 .none 0) ∧
    decode .long64 [0xF2, 0x45, 0x0F, 0x2B, 0b10000000, 0x00, 0x01, 0x00, 0x00] = .ok (.movntsd true 8 (.d32 0x100) 8) := by decide

/-- `F3 0F 2B /r`: X6 with ModRM 01 001 111, and X8 with ModRM 01 000 101. -/
theorem test_decode_movntss :
    decode .legacy32 [0xF3, 0x0F, 0x2B, 0b01001111, 0x04] = .ok (.movntss false 7 (.d8 4) 1) ∧
    decode .long64 [0xF3, 0x0F, 0x2B, 0b01000101, 0xF8] = .ok (.movntss false 5 (.d8 0xF8) 0) := by decide

/-- `0F AE F8`: X9. -/
theorem test_decode_sfence : decode .long64 [0x0F, 0xAE, 0xF8] = .ok .sfence ∧ decode .legacy32 [0x0F, 0xAE, 0xF8] = .ok .sfence := by
  decide

/-- X10 to X18. -/
theorem test_decode_others :
    decode .long64 [0x66, 0x0F, 0x79, 0x00] = .illegal .extrq 4 ∧ decode .long64 [0xF3, 0x0F, 0x2B, 0xC1] = .illegal .movntss 4 ∧
    decode .long64 [0x66, 0x0F, 0x78, 0xC0, 0x04, 0x08] = .refused .immediateForm ∧
    decode .long64 [0xF2, 0x0F, 0x2B, 0x04, 0x24] = .refused .sib ∧
    decode .long64 [0xF2, 0x0F, 0x2B, 0x05, 0, 0, 0, 0] = .refused .ripRelative ∧
    decode .long64 [0xF2, 0x48, 0x0F, 0x79, 0xC1] = .refused .rexWX ∧
    decode .legacy32 [0xF2, 0x45, 0x0F, 0x79, 0xC1] = .refused .rexInLegacy32 ∧
    decode .long64 [0x0F, 0xAE, 0xF9] = .refused .fenceModrm ∧
    decode .long64 [0x45, 0xF2, 0x0F, 0x79, 0xC1] = .refused .rexMisplaced := by decide

/-- The match words of opcode_table.json, each as the decoder reads it. -/
theorem test_table_words :
    decodeTableWord 32 0x660F79C0 = some (.extrq false 0 0) ∧ decodeTableWord 32 0xF20F79C0 = some (.insertq false 0 0) ∧
    decodeTableWord 32 0xF20F2B00 = some (.movntsd false 0 .none 0) ∧ decodeTableWord 32 0xF30F2B00 = some (.movntss false 0 .none 0) ∧
    decodeTableWord 24 0x0FAEF8 = some .sfence := by decide

/-- The step after reset runs each of them: the pc moves by the length (R86). -/
theorem test_first_steps :
    (got (step (State.reset.withFetchWord 32 0x660F79C0))).cur.pc = 4 ∧ (got (step (State.reset.withFetchWord 32 0xF20F79C0))).cur.pc = 4 ∧
    (got (step (State.reset.withFetchWord 32 0xF20F2B00))).cur.pc = 4 ∧ (got (step (State.reset.withFetchWord 32 0xF30F2B00))).cur.pc = 4 ∧
    (got (step (State.reset.withFetchWord 24 0x0FAEF8))).cur.pc = 3 := by decide

/-- Assembler syntax of X6, Intel and AT&T order (R87). -/
theorem test_syntax :
    intelSyntax .long64 (.movntss false 7 (.d8 4) 1) = "movntss dword ptr [rdi + 4], xmm1" ∧
    attSyntax .long64 (.movntss false 7 (.d8 4) 1) = "movntss %xmm1, 4(%rdi)" := by decide

/-! ### Witnesses: encoding -/

theorem witness_DecodeOfEncode :
    (Instr.extrq true 15 15).wellFormed .long64 = true ∧ (Instr.extrq false 7 7).wellFormed .legacy32 = true ∧
    (Instr.insertq true 0 0).wellFormed .long64 = true ∧ (Instr.movntsd true 15 (.d32 0xFFFFFFFF) 15).wellFormed .long64 = true ∧
    (Instr.movntss false 5 (.d8 0x80) 7).wellFormed .legacy32 = true ∧ Instr.sfence.wellFormed .legacy32 = true := by decide

theorem witness_DecodeOnlyEncodings :
    decode .long64 [0x66, 0x45, 0x0F, 0x79, 0xC1, 0x90] = .ok (.extrq true 8 9) := by decide

theorem witness_DecodeVerdictStable :
    decode .long64 [0xF2, 0x0F, 0x2B, 0x00] ≠ .refused .truncated ∧ decode .long64 [0x66, 0x0F, 0x79, 0x00] ≠ .refused .truncated ∧
    decode .legacy32 [0x45] ≠ .refused .truncated := by decide

theorem witness_NineBytesGiveAVerdict : maxLength ≤ ([0xF2, 0x45, 0x0F, 0x2B, 0x80, 0, 1, 0, 0] : List Byte).length := by decide

/-- Each clause of RefusedEncodings has bytes that meet its conditions, at the boundaries of their ranges. -/
theorem witness_RefusedEncodings :
    ([0x45] ∈ rexChoices .long64 ∧ [] ∈ rexChoices .long64 ∧ [] ∈ rexChoices .legacy32) ∧ (regField 0xC7 = 0 ∧ regField 0xC8 ≠ 0) ∧
    (modField 0x04 ≠ 3 ∧ rmField 0x04 = 4) ∧ (modField 0x05 = 0 ∧ rmField 0x05 = 5) ∧
    (isRex 0x48 = true ∧ ((0x48 : Byte).getLsbD 3 || (0x48 : Byte).getLsbD 1) = true) ∧
    (isRex 0x42 = true ∧ ((0x42 : Byte).getLsbD 3 || (0x42 : Byte).getLsbD 1) = true) ∧
    (isRex 0x45 = true ∧ ((0x45 : Byte).getLsbD 3 || (0x45 : Byte).getLsbD 1) = false) ∧
    ((0xF2 : Byte) ∈ mandatoryPrefixes ++ refusedPrefixes ∧ (0xF0 : Byte) ∈ refusedPrefixes ∧ (0x62 : Byte) ∈ vexBytes) ∧
    (isPlain 0x3F ∧ isPlain 0x50 ∧ isPlain 0x90) ∧ ((0xF9 : Byte) ≤ 0xF9 ∧ (0xF9 : Byte) ≤ 0xFF) ∧ (0xF7 : Byte) < 0xF8 :=
  ⟨by decide, by decide, by decide, by decide, by decide, by decide, by decide, by decide, by decide, by decide, by decide⟩

/-- A word for each way to be another opcode, written out from R82 and R84. -/
theorem test_decode_other_opcodes :
    decode .long64 [0xF2, 0x41, 0x0F, 0x78, 0xC8] = .refused .immediateForm ∧ decode .long64 [0x66, 0x0F, 0x78, 0xC8] = .refused .otherOpcode ∧
    decode .long64 [0xF3, 0x0F, 0x79, 0xC0] = .refused .otherOpcode ∧ decode .long64 [0x66, 0x0F, 0x2B, 0x00] = .refused .otherOpcode ∧
    decode .long64 [0x66, 0x45, 0x0F, 0x6F] = .refused .otherOpcode ∧ decode .legacy32 [0xF3, 0x90] = .refused .otherOpcode ∧
    decode .legacy32 [0x0F, 0xAE, 0xF0] = .refused .otherOpcode ∧ decode .legacy32 [0x90] = .refused .otherOpcode := by decide

theorem witness_LegacyRegistersBelowEight :
    decode .legacy32 [0x66, 0x0F, 0x79, 0xFF] = .ok (.extrq false 7 7) ∧ decode .legacy32 [0xF2, 0x0F, 0x79, 0xFF] = .ok (.insertq false 7 7) ∧
    decode .legacy32 [0xF2, 0x0F, 0x2B, 0x3F] = .ok (.movntsd false 7 .none 7) ∧
    decode .legacy32 [0xF3, 0x0F, 0x2B, 0x3F] = .ok (.movntss false 7 .none 7) := by decide

/-! ### Witnesses: the step -/

/-- SFENCE stands at the pc, first with an empty agenda and then with a turn to issue. -/
theorem witness_StepRunsDecodedInstruction :
    (coded stores (encode .sfence)).running ∧ (coded stores (encode .sfence)).cur.ended = false ∧
    Instr.sfence.wellFormed (coded stores (encode .sfence)).mode = true ∧
    standAtPc (coded stores (encode .sfence)) (encode .sfence) Instr.sfence.length ∧ (coded stores (encode .sfence)).agenda = [] ∧
    standAtPc (due (coded stores (encode .sfence)) [.issue]) (encode .sfence) Instr.sfence.length ∧
    (due (coded stores (encode .sfence)) [.issue]).agenda = .issue :: [] := by decide

/-- X10 and X11 stand at the pc; the capabilities are absent. -/
theorem witness_InvalidOpcodeRaised :
    (under stores fun p => { p with capSse4a := false }).platform.capSse4a = false ∧
    (under stores fun p => { p with capFence := false }).platform.capFence = false ∧
    (readyToIssue (coded stores [0x66, 0x45, 0x0F, 0x79, 0x00]) ∧ [0x45] ∈ rexChoices (coded stores [0x66, 0x45, 0x0F, 0x79, 0x00]).mode ∧
      standAtPc (coded stores [0x66, 0x45, 0x0F, 0x79, 0x00]) [0x66, 0x45, 0x0F, 0x79, 0x00] 5 ∧ modField 0x00 ≠ 3) ∧
    (readyToIssue (coded stores [0xF3, 0x0F, 0x2B, 0xC1]) ∧ [] ∈ rexChoices (coded stores [0xF3, 0x0F, 0x2B, 0xC1]).mode ∧
      standAtPc (coded stores [0xF3, 0x0F, 0x2B, 0xC1]) [0xF3, 0x0F, 0x2B, 0xC1] 4 ∧ modField 0xC1 = 3) := by decide

theorem witness_RefusalMarkStays :
    (readyToIssue (coded stores [0x0F, 0xAE, 0xF9]) ∧ decode (coded stores [0x0F, 0xAE, 0xF9]).mode [0x0F, 0xAE, 0xF9] = .refused .fenceModrm ∧
      standAtPc (coded stores [0x0F, 0xAE, 0xF9]) [0x0F, 0xAE, 0xF9] 3) ∧
    (afterStep (coded stores [0x0F, 0xAE, 0xF9])).refused ≠ none := by decide

/-- S4: a misaligned store that stands at the pc. -/
theorem witness_FaultChangesOnlyTheRecord :
    (coded stores [0xF2, 0x0F, 0x2B, 0x40, 0x04]).running ∧
    step (coded stores [0xF2, 0x0F, 0x2B, 0x40, 0x04]) = .fault (.misaligned 0 0 .movntsd 0x1004 8) := by
  exact ⟨by decide, eq_fault (by decide)⟩

theorem witness_FaultRecordOnlyGrows :
    Fault.unfencedAtEnd 0 0 [entry8] ∈ (stores.recordFault (.unfencedAtEnd 0 0 [entry8])).faults := by decide

theorem witness_PcMovesByTheLength :
    (∃ t, exec .sfence stores = .next t) ∧ ∃ f, exec (.movntsd false 0 (.d8 4) 0) stores = .fault f :=
  ⟨⟨_, eq_got (by decide)⟩, ⟨.misaligned 0 0 .movntsd 0x1004 8, eq_fault (by decide)⟩⟩

/-! ### Witnesses: the descriptor and the codec -/

theorem witness_MaskOnes : (1 ≤ 1 ∧ 1 ≤ 64 ∧ 0 < 64) ∧ (1 ≤ 64 ∧ 64 ≤ 64 ∧ 63 < 64) := by decide

/-- Both shapes of a valid descriptor, at their boundaries. -/
theorem witness_ValidDescriptors :
    (decodeDesc 0x013F).valid = true ∧ (1 ≤ rawLen 0x013F ∧ rawLen 0x013F ≤ 63 ∧ rawIdx 0x013F + rawLen 0x013F = 64) ∧
    (decodeDesc 0x00C0).valid = true ∧ rawLen 0x00C0 = 0 ∧ rawIdx 0x00C0 = 0 := by decide

theorem witness_EncodedDescriptorReadsBack : (0 < 64 ∧ 1 ≤ 64 ∧ 64 ≤ 64) ∧ (63 < 64 ∧ 1 ≤ 1 ∧ 1 ≤ 64) := by decide

/-- E8 is E1 with the ignored bits set, and I11 does the same to INSERTQ. -/
theorem witness_IgnoredDescriptorBits :
    (1 : XReg) ≠ 0 ∧ rawLen 0xFFFFFFFFFFFFC8C4 = rawLen ((small (half 0x600) (half 0x0804) 0).lane 1 .lane0).val ∧
    rawIdx 0xFFFFFFFFFFFFC8C4 = rawIdx ((small (half 0x600) (half 0x0804) 0).lane 1 .lane0).val ∧
    (∃ t, exec (.extrq false 0 1) (small (half 0x600) (half 0x0804) 0) = .next t) ∧
    rawLen 0xFFFFFFFFFFFFC8C4 = rawLen ((small (full 0x0804 1) (full 0x0804 1) 0).lane 1 .lane1).val ∧
    rawIdx 0xFFFFFFFFFFFFC8C4 = rawIdx ((small (full 0x0804 1) (full 0x0804 1) 0).lane 1 .lane1).val ∧
    (∃ t, exec (.insertq false 0 1) (small (full 0x0804 1) (full 0x0804 1) 0) = .next t) ∧
    ∃ t, exec (.insertq false 1 1) (small (full 0x0804 1) (full 0x0804 1) 0) = .next t :=
  ⟨by decide, by decide, by decide, ⟨_, eq_got (by decide)⟩, by decide, by decide, ⟨_, eq_got (by decide)⟩, _, eq_got (by decide)⟩

/-- E4 (length 1, index 63) and E2 (length 64), with no lane 1 written (E18). -/
theorem witness_ExtrqExtractsTheField :
    ∀ c ∈ ([0x3F01, 0] : List Word), ∀ s : State, s = small (half 0x8000000000000000) (half c) 0 →
      s.platform.capSse4a = true ∧ (s.lane 0 .lane0).written = true ∧ (s.lane 1 .lane0).written = true ∧
        (decodeDesc (s.lane 1 .lane0).val).valid = true := by
  rintro c hc s rfl
  simp only [List.mem_cons, List.not_mem_nil, or_false] at hc
  rcases hc with rfl | rfl <;> decide

/-- I5 (length 63, index 1) and I2 (length 64); lane 1 of the destination is not written (I17). -/
theorem witness_InsertqReplacesTheField :
    ∀ c ∈ ([0x013F, 0] : List Word), ∀ s : State, s = small (half 1) (full c 1) 0 →
      s.platform.capSse4a = true ∧ (s.lane 0 .lane0).written = true ∧ (s.lane 1 .lane0).written = true ∧
        (s.lane 1 .lane1).written = true ∧ (decodeDesc (s.lane 1 .lane1).val).valid = true := by
  rintro c hc s rfl
  simp only [List.mem_cons, List.not_mem_nil, or_false] at hc
  rcases hc with rfl | rfl <;> decide

/-- P1 with X[2] in register 2. -/
def p1 : State :=
  { small (half 0xAAA) (full 0x0804 6) 0 with cur := { (small (half 0xAAA) (full 0x0804 6) 0).cur with
      x := (small (half 0xAAA) (full 0x0804 6) 0).cur.x.set 2 (half 0x0804) } }

/-- E16, E15 and I14 (each case at its boundary) under both policies. -/
theorem witness_RangeViolationFaults :
    (∀ s ∈ ([small (half 1) (half 0x3F02) 0, small (half 1) (half 0x0100) 0] : List State),
      isField s (.extrq false 0 1) (s.lane 1 .lane0).val false 0 1 ∧
      s.platform.capSse4a = true ∧ (s.lane 0 .lane0).written = true ∧ (s.lane 1 .lane0).written = true ∧
        (Instr.extrq false 0 1).op ≠ .insertq ∧ breaksRange (s.lane 1 .lane0).val ∧ s.platform.bfRange = .fault) ∧
    ∀ s : State, s = small (half 1) (full 0x0500 1) 0 → isField s (.insertq false 0 1) (s.lane 1 .lane1).val false 0 1 ∧
      (s.lane 1 .lane1).written = true ∧ breaksRange (s.lane 1 .lane1).val := by
  refine ⟨by decide, ?_⟩
  rintro s rfl
  decide

/-- E17 and I15. -/
theorem witness_RangeViolationDraws :
    ∀ s : State, s = under (small (half 1) (full 0x3C08 0x3C08) 0) (fun p => { p with bfRange := .draw }) →
      isField s (.extrq false 0 1) (s.lane 1 .lane0).val false 0 1 ∧ isField s (.insertq false 0 1) (s.lane 1 .lane1).val false 0 1 ∧
      s.platform.capSse4a = true ∧ (s.lane 0 .lane0).written = true ∧ (s.lane 1 .lane0).written = true ∧
        (s.lane 1 .lane1).written = true ∧ breaksRange (s.lane 1 .lane0).val ∧ breaksRange (s.lane 1 .lane1).val ∧
        s.platform.bfRange = .draw := by
  rintro s rfl
  decide

theorem witness_LaneOneIsAFreshDraw :
    isField p1 (.extrq false 2 2) (p1.lane 2 .lane0).val false 2 2 ∧ (∃ t, exec (.extrq false 2 2) p1 = .next t) ∧
    isField p1 (.insertq false 0 1) (p1.lane 1 .lane1).val false 0 1 ∧ (∃ t, exec (.insertq false 0 1) p1 = .next t) ∧
    (decodeDesc (p1.lane 2 .lane0).val).valid = true ∧ (decodeDesc (p1.lane 1 .lane1).val).valid = true :=
  ⟨by decide, ⟨_, eq_got (by decide)⟩, by decide, ⟨_, eq_got (by decide)⟩, by decide, by decide⟩

/-- E12 and I12. -/
theorem witness_SameRegisterReadsOldValues :
    ∀ s : State, s = small (full 0x0804 0x0804) (half 0) 0 → s.platform.capSse4a = true ∧ (s.lane 0 .lane0).written = true ∧
      (decodeDesc (s.lane 0 .lane0).val).valid = true ∧ (s.lane 0 .lane1).written = true ∧
      (decodeDesc (s.lane 0 .lane1).val).valid = true := by
  rintro s rfl
  decide

/-- P-2, E19, I16, S14: which lane is unwritten. -/
theorem witness_UnwrittenLaneFaults :
    State.reset.platform.capSse4a = true ∧ (State.reset.lane 0 .lane0).written = false ∧
    (((small (half 0) XEntry.reset 0).lane 0 .lane0).written = true ∧ ((small (half 0) XEntry.reset 0).lane 1 .lane0).written = false) ∧
    (((small (half 0) (half 1) 0).lane 0 .lane0).written = true ∧ ((small (half 0) (half 1) 0).lane 1 .lane0).written = true ∧
      ((small (half 0) (half 1) 0).lane 1 .lane1).written = false) ∧
    isStore (.movntsd false 0 .none 0) 8 false 0 .none 0 ∧ isStore (.movntss false 0 .none 0) 4 false 0 .none 0 := by decide

theorem witness_CodecLaws :
    (decodeDesc 0).valid = true ∧ (decodeDesc 0).len = 64 ∧ (decodeDesc 0x013F).valid = true ∧ (decodeDesc 0x013F).len < 64 := by decide

theorem witness_InsertThenExtractGivesTheBits :
    (2 : XReg) ≠ 0 ∧ (∃ t, exec (.insertq false 0 1) p1 = .next t) ∧ (decodeDesc (p1.lane 1 .lane1).val).valid = true ∧
    (p1.lane 2 .lane0).written = true ∧ rawLen (p1.lane 2 .lane0).val = rawLen (p1.lane 1 .lane1).val ∧
    rawIdx (p1.lane 2 .lane0).val = rawIdx (p1.lane 1 .lane1).val :=
  ⟨by decide, ⟨_, eq_got (by decide)⟩, by decide, by decide, by decide, by decide⟩

theorem witness_BitFieldFrame :
    (∃ t, exec (.extrq false 2 2) p1 = .next t) ∧ ∃ t, exec (.insertq false 0 1) p1 = .next t :=
  ⟨⟨_, eq_got (by decide)⟩, ⟨_, eq_got (by decide)⟩⟩

/-! ### Witnesses: streaming stores -/

/-- S1, S3 and, under the policy `Perform`, S5. -/
theorem witness_StreamingStoreAppendsAnEntry :
    (stores.platform.capSse4a = true ∧ (stores.lane 0 .lane0).written = true) ∧
    (stores.effectiveAddress 0 .none = 0x1000 ∧ stores.cur.validWrite 0x1000 8 = true ∧ (0x1000 : Addr).toNat % 8 = 0) ∧
    ¬ meetsPending stores 0x1000 8 ∧
    (stores.effectiveAddress 0 (.d8 4) = 0x1004 ∧ stores.cur.validWrite 0x1004 4 = true ∧ (0x1004 : Addr).toNat % 4 = 0) ∧
    ¬ meetsPending stores 0x1004 4 ∧
    ((under stores fun p => { p with misalignedNt := .perform }).platform.misalignedNt = .perform ∧
      (under stores fun p => { p with misalignedNt := .perform }).cur.validWrite 0x1004 8 = true ∧ (0x1004 : Addr).toNat % 8 ≠ 0) ∧
    ¬ meetsPending (under stores fun p => { p with misalignedNt := .perform }) 0x1004 8 :=
  ⟨by decide, by decide, not_meets_of (by decide), by decide, not_meets_of (by decide), by decide, not_meets_of (by decide)⟩

/-- S8, P-5, P-6 and S13; and bytes that a misaligned store under `Perform` would meet. -/
theorem witness_StreamingStoreFaultOrder :
    stores.cur.validWrite 0x0FF8 8 = false ∧
    ((pend stores [entry8]).cur.validWrite 0x1004 8 = true ∧ (0x1004 : Addr).toNat % 8 ≠ 0 ∧ (pend stores [entry8]).platform.misalignedNt = .fault) ∧
    ((pend stores [entry8]).cur.validWrite 0x1000 8 = true ∧ (0x1000 : Addr).toNat % 8 = 0) ∧ meetsPending (pend stores [entry8]) 0x1000 8 ∧
    meetsPending (pend stores [entry8]) 0x1004 8 ∧ meetsPending (beside stores) 0x1000 8 :=
  ⟨by decide, by decide, by decide, meets_of (by decide), meets_of (by decide), meets_of (by decide)⟩

/-- S10 and S11. -/
theorem witness_OverlappingStoreNeedsAFence :
    (∃ t, exec (.movntsd false 0 .none 0) stores = .next t ∧ byteAddrs t.mode (t.effectiveAddress 0 (.d8 4)) 4 = [0x1004, 0x1005, 0x1006, 0x1007]) ∧
    (0x1004 : Addr) ∈ byteAddrs stores.mode (stores.effectiveAddress 0 .none) 8 :=
  ⟨⟨_, eq_got (by decide), by decide⟩, by decide⟩

theorem witness_StreamingStoreFrame :
    (∃ t, exec (.movntsd false 0 .none 0) stores = .next t) ∧ ∃ t, exec (.movntss false 0 (.d8 4) 0) (beside stores) = .next t :=
  ⟨⟨_, eq_got (by decide)⟩, ⟨_, eq_got (by decide)⟩⟩

/-! ### Witnesses: the fence -/

theorem witness_SfenceCommitsEveryEntry :
    (pend stores entries44).platform.capFence = true ∧ (pend stores entries44).legal ∧ (pend stores entries44).cur.nt ≠ [] := by decide

theorem away : (entries44.all fun e => (byteAddrs stores.mode e.addr e.bytes.length).all fun a => decide (a.toNat ≠ 0x2000)) = true := by decide

theorem away8 : (entries44.all fun e => (byteAddrs stores.mode e.addr e.bytes.length).all fun a => decide (a.toNat ≠ 0x1008)) = true := by decide

/-- The first entry is not at 2000, and neither is a buffered store. -/
theorem witness_SfenceFrame :
    (∃ t, exec .sfence (pend stores entries44) = .next t) ∧
    (∀ e ∈ (pend stores entries44).cur.nt, ∀ a ∈ byteAddrs stores.mode e.addr e.bytes.length, a.toNat ≠ 0x2000) ∧
    (∀ e ∈ (pend stores entries44).cur.storeBuf, ∀ a ∈ byteAddrs stores.mode e.addr e.bytes.length, a.toNat ≠ 0x2000) :=
  ⟨⟨_, eq_got (by decide)⟩, fun e he => avoids_of (List.all_eq_true.1 away e he), fun e he => by cases he⟩

/-- F4. -/
theorem witness_FenceLeavesOtherThreadsPending :
    (∃ t, exec .sfence (beside stores) = .next t) ∧ otherThread ∈ (beside stores).others ∧ (0x1003 : Addr) ∈ otherThread.pendingBytes stores.mode ∧
    (0x1003 : Addr) ∈ byteAddrs stores.mode 0x1000 8 :=
  ⟨⟨_, eq_got (by decide)⟩, by decide, by decide, by decide⟩

theorem witness_CommitOrderCannotBeSeen :
    (pend stores entries44).legal ∧ (pend stores entries44).mem.wf ∧ entries44.reverse.Perm (pend stores entries44).cur.nt := by decide

/-- A buffered store at 1008 beside the entries. -/
def buffered : State :=
  { pend stores entries44 with cur := { (pend stores entries44).cur with storeBuf := [{ addr := 0x1008, bytes := [9] }] } }

theorem witness_FencePublishesOrdinaryStores :
    (∃ t, exec .sfence buffered = .next t) ∧
    (∀ e ∈ buffered.cur.nt, ∀ a ∈ byteAddrs buffered.mode e.addr e.bytes.length, a.toNat ≠ 0x1008) ∧
    buffered.loadView.read 0x1008 = 9 ∧ buffered.mem.read 0x1008 = 0 :=
  ⟨⟨_, eq_got (by decide)⟩, fun e he => avoids_of (List.all_eq_true.1 away8 e he), by decide, by decide⟩

/-- One store each; and, with an entry at 1000 and a buffered store at 1008, a store at 1010 and a byte that none of them covers. -/
theorem witness_StoreFenceLoadHighHalf :
    (∃ t u, exec (.movntsd false 0 .none 0) stores = .next t ∧ exec .sfence t = .next u) ∧
    (∃ t u, exec (.movntss false 0 (.d8 16) 0) buffered = .next t ∧ exec .sfence t = .next u) ∧
    (∀ a ∈ byteAddrs buffered.mode (buffered.effectiveAddress 0 (.d8 16)) 4, a.toNat ≠ 0x2000) ∧
    (∀ e ∈ buffered.cur.nt, ∀ a ∈ byteAddrs buffered.mode e.addr e.bytes.length, a.toNat ≠ 0x2000) ∧
    ∀ e ∈ buffered.cur.storeBuf, ∀ a ∈ byteAddrs buffered.mode e.addr e.bytes.length, a.toNat ≠ 0x2000 := by
  refine ⟨⟨_, _, eq_got (by decide), eq_got (by decide)⟩, ⟨_, _, eq_got (by decide), eq_got (by decide)⟩, avoids_of (by decide),
    fun e he => avoids_of (List.all_eq_true.1 away e he), fun e he => ?_⟩
  obtain rfl : e = { addr := 0x1008, bytes := [9] } := List.mem_singleton.1 he
  exact avoids_of (by decide)

/-! ### Witnesses: accesses of the host and of the fetch -/

/-- S18 and its companions; and a fetch whose first or third byte is pending, the bytes before it in memory. -/
theorem witness_UnfencedAccessFaults :
    (pend stores [entry8]).running ∧ meetsPending (pend stores [entry8]) 0x1007 1 ∧ ([0] : List Byte).length = 1 ∧
    (due (pend stores [entry8]) [.host (.load 0x1007 1)]).agenda = .host (.load 0x1007 1) :: [] ∧
    ∀ s : State, s = pend (coded stores [0x0F, 0xAE]) [{ addr := 0, n := 4, bytes := [0, 0, 0, 0] }] ∨
        s = pend (coded { stores with cur := { stores.cur with pc := 0xFFE } } [0x0F, 0xAE]) [entry8] →
      readyToIssue s ∧ Instr.sfence.wellFormed s.mode = true ∧
        ((standAtPc s (encode .sfence) 0 ∧ pcByte s 0 ∈ s.allPending) ∨ (standAtPc s (encode .sfence) 2 ∧ pcByte s 2 ∈ s.allPending)) := by
  refine ⟨by decide, meets_of (by decide), by decide, by decide, ?_⟩
  rintro s (rfl | rfl) <;> decide

/-- An access at an address that nothing has written, beside a pending byte, for each turn. -/
theorem witness_AccessesClearOfPendingBytesComplete :
    (pend stores [entry8]).running ∧ ¬ meetsPending (pend stores [entry8]) 0x1008 1 ∧ ([7] : List Byte).length = 1 ∧
    (due (pend stores [entry8]) [.host (.load 0x1008 1)]).agenda = .host (.load 0x1008 1) :: [] ∧
    (due (pend stores [entry8]) [.host (.read 0x1008 1)]).agenda = .host (.read 0x1008 1) :: [] ∧
    (due (pend stores [entry8]) [.host (.store 0x1008 [7])]).agenda = .host (.store 0x1008 [7]) :: [] :=
  ⟨by decide, not_meets_of (by decide), by decide, by decide, by decide, by decide⟩

/-- S19, and an end with nothing pending; reset is final. -/
theorem witness_EndNeedsAnEmptyBuffer :
    ((due (pend stores [entry8]) [.host .endRun]).running ∧ (due (pend stores [entry8]) [.host .endRun]).agenda = .host .endRun :: [] ∧
      (due (pend stores [entry8]) [.host .endRun]).cur.nt ≠ []) ∧
    ((due stores [.host .endRun]).agenda = .host .endRun :: [] ∧ (due stores [.host .endRun]).cur.nt = []) ∧ State.reset.final := by decide

theorem witness_HostWriteSetsBothMarks :
    (due State.reset [.host (.writeX 15 7)]).running ∧ (due State.reset [.host (.writeX 15 7)]).agenda = .host (.writeX 15 7) :: [] ∧
    (14 : XReg) ≠ 15 := by decide

/-- To the other thread, and to the one that issues already. -/
theorem witness_SwitchKeepsEveryThread :
    ∀ s : State, s = beside stores → s.running ∧ (s.threads.map Thread.id).Nodup ∧ otherThread ∈ s.threads ∧ s.cur ∈ s.threads ∧
      (due s [.host (.switch otherThread.id)]).agenda = .host (.switch otherThread.id) :: [] := by
  rintro s rfl; decide

/-- Both memory models. -/
theorem witness_OrdinaryStoreVisibility :
    (∃ t, hostStore 0x1000 [1, 2] stores = .next t) ∧ stores.platform.ordinaryMM = .storeBuffered ∧ ([1, 2] : List Byte).length ≤ 2 ^ 32 ∧
    (∃ t, hostStore 0x1000 [1, 2] (under stores fun p => { p with ordinaryMM := .sequential }) = .next t) ∧
    (under stores fun p => { p with ordinaryMM := .sequential }).platform.ordinaryMM = .sequential :=
  ⟨⟨_, eq_got (by decide)⟩, by decide, by decide, ⟨_, eq_got (by decide)⟩, by decide⟩

/-- Both values of `FetchCoherence`. -/
theorem witness_FetchSeesCommitsByItsParameter :
    (∃ t, exec .sfence (pend stores [entry8]) = .next t) ∧ stores.platform.fetchCoherence = .coherent ∧
    (∃ t, exec .sfence (under (pend stores [entry8]) fun p => { p with fetchCoherence := .deferred }) = .next t) ∧
    (under (coded stores [1]) fun p => { p with fetchCoherence := .deferred }).platform.fetchCoherence = .deferred ∧
    (0 : Addr) ∈ byteAddrs stores.mode 0 4 ∧ (coded stores [1]).mem.read (0 : Addr).toNat = 1 :=
  ⟨⟨_, eq_got (by decide)⟩, by decide, ⟨_, eq_got (by decide)⟩, by decide, by decide, by decide⟩

/-! ### Witnesses: the whole machine -/

/-- A legal state with entries, another thread and an instruction at the pc, whose step completes. -/
theorem witness_StepKeepsLegal :
    (coded (beside stores) [0xF3, 0x0F, 0x2B, 0x40, 0x04]).legal ∧ ∃ t, step (coded (beside stores) [0xF3, 0x0F, 0x2B, 0x40, 0x04]) = .next t :=
  ⟨by decide, _, eq_got (by decide)⟩

/-- A store adds to the thread's own entries, and a fence removes them. -/
theorem witness_PendingChangesOnlyByStoreAndFence :
    ∀ s : State, s = coded (beside stores) [0xF3, 0x0F, 0x2B, 0x40, 0x04] ∨ s = coded (pend stores [entry8]) [0x0F, 0xAE, 0xF8] →
      (s.threads.map Thread.id).Nodup ∧ ∃ t, step s = .next t ∧ t.ntOf 0 ≠ s.ntOf 0 := by
  rintro s (rfl | rfl)
  · exact ⟨by decide, _, eq_got (by decide), by decide⟩
  · exact ⟨by decide, _, eq_got (by decide), by decide⟩

theorem witness_ParametersNeverChange :
    ((coded stores [0x0F, 0xAE, 0xF8]).threads.map Thread.id).Nodup ∧ ∃ t, step (coded stores [0x0F, 0xAE, 0xF8]) = .next t :=
  ⟨by decide, _, eq_got (by decide)⟩

/-- Every other register may differ, and the base is the same. -/
theorem witness_GeneralRegistersOnlyAsBase :
    ((Vector.replicate 16 (7 : Word)).set 0 0x1000).get 0 = stores.cur.g.get 0 ∧ (Vector.replicate 16 (7 : Word)).set 0 0x1000 ≠ stores.cur.g ∧
    ∃ t, exec (.movntsd false 0 .none 0) stores = .next t :=
  ⟨by decide, by decide, _, eq_got (by decide)⟩

theorem witness_LaunchPlacesTheInstruction : 0 ≤ 72 ∧ 72 ≤ 72 ∧ State.reset.others = [] := by decide

end Sys2Proof.Tests
end

section
/-! PROOFS. The decoder and the encoder stage by stage: the ModRM byte, the REX byte, the two formats, the opcode map
(30_encoding.md R75 to R86). `decode_encode` and `decode_ok` say which byte strings
decode to an instruction. -/

namespace Sys2Proof

/-! ### ModRM and REX -/

/-- The byte that `prefixOf` reads as this one (R75). -/
def Prefix.byte : Prefix → Byte
  | .p66 => 0x66
  | .pF2 => 0xF2
  | .pF3 => 0xF3

/-- The bits of the REX byte that `rexBytes` writes (R78). -/
def rexBits (rex : Bool) (reg rm : Fin 16) : Option RexBits :=
  if rex then some { r := decide (8 ≤ reg.val), b := decide (8 ≤ rm.val) } else none

/-- The REX byte with `W = X = 0` and these bits (R78). -/
def RexBits.byte (x : RexBits) : Byte :=
  (4 : BitVec 4) ++ (0 : BitVec 1) ++ BitVec.ofBool x.r ++ (0 : BitVec 1) ++ BitVec.ofBool x.b

/-- The bytes that stand between the mandatory byte and `0F` (R75, R78). -/
def optRexBytes (rex : Option RexBits) : List Byte := (rex.map RexBits.byte).toList

theorem rexBytes_eq (rex : Bool) (reg rm : Fin 16) : rexBytes rex reg rm = optRexBytes (rexBits rex reg rm) := by
  cases rex <;> rfl

@[simp] theorem rexBits_isSome (rex : Bool) (reg rm : Fin 16) : (rexBits rex reg rm).isSome = rex := by
  cases rex <;> rfl

/-- The three fields of a ModRM byte read back (R76, R77). -/
theorem modrm_fields_append : ∀ (mod : BitVec 2) (reg rm : BitVec 3),
    modField (mod ++ reg ++ rm) = mod ∧ regField (mod ++ reg ++ rm) = reg ∧ rmField (mod ++ reg ++ rm) = rm := by
  decide

@[simp] theorem modField_modrmByte (mod : BitVec 2) (reg rm : Fin 16) : modField (modrmByte mod reg rm) = mod :=
  (modrm_fields_append ..).1

@[simp] theorem regField_modrmByte (mod : BitVec 2) (reg rm : Fin 16) :
    regField (modrmByte mod reg rm) = BitVec.ofNat 3 reg.val := (modrm_fields_append ..).2.1

@[simp] theorem rmField_modrmByte (mod : BitVec 2) (reg rm : Fin 16) :
    rmField (modrmByte mod reg rm) = BitVec.ofNat 3 rm.val := (modrm_fields_append ..).2.2

theorem regNum_high : ∀ (hi : Bool) (lo : BitVec 3), decide (8 ≤ (regNum hi lo).val) = hi := by decide

theorem regNum_low : ∀ (hi : Bool) (lo : BitVec 3), BitVec.ofNat 3 (regNum hi lo).val = lo := by decide

theorem regNum_ofNat : ∀ r : Fin 16, regNum (decide (8 ≤ r.val)) (BitVec.ofNat 3 r.val) = r := by decide

/-- The register numbers are read back from the REX bits and the ModRM byte (R76, R77). -/
theorem regOf_rmOf_modrmByte {m : Mode} {rex : Bool} {reg rm : Fin 16} (h : regsFit m rex reg rm = true) (mod : BitVec 2) :
    regOf (rexBits rex reg rm) (modrmByte mod reg rm) = reg ∧ rmOf (rexBits rex reg rm) (modrmByte mod reg rm) = rm := by
  have hreg := regNum_ofNat reg
  have hrm := regNum_ofNat rm
  cases rex with
  | true => simpa [regOf, rmOf, rexBits] using ⟨hreg, hrm⟩
  | false =>
    simp only [regsFit, Bool.false_eq_true, if_false, Bool.and_eq_true, decide_eq_true_eq] at h
    rw [decide_eq_false (by omega)] at hreg hrm
    simpa [regOf, rmOf, rexBits] using ⟨hreg, hrm⟩

/-- The ModRM byte is the one the encoder writes for the register numbers read from it (R76, R77). -/
theorem modrmByte_regOf_rmOf (rex : Option RexBits) (modrm : Byte) :
    modrmByte (modField modrm) (regOf rex modrm) (rmOf rex modrm) = modrm := by
  have append : ∀ b : Byte, modField b ++ regField b ++ rmField b = b := by decide
  rw [modrmByte, regOf, rmOf, regNum_low, regNum_low, append]

/-- The REX bits are the ones the encoder writes for the register numbers read from them (R78). -/
theorem rexBits_regOf_rmOf (rex : Option RexBits) (modrm : Byte) :
    rexBits rex.isSome (regOf rex modrm) (rmOf rex modrm) = rex := by
  cases rex with
  | none => rfl
  | some x =>
    rw [rexBits, regOf, rmOf, regNum_high, regNum_high]
    rfl

/-- Without REX a register number has three bits; a REX byte is there only in `Long64` (R76 to R78). -/
theorem regsFit_regOf_rmOf {m : Mode} {rex : Option RexBits} (h : rex.isSome = true → m = .long64) (modrm : Byte) :
    regsFit m rex.isSome (regOf rex modrm) (rmOf rex modrm) = true := by
  cases rex with
  | none =>
    have low : ∀ lo : BitVec 3, (regNum false lo).val < 8 := by decide
    simp [regsFit, regOf, rmOf, low]
  | some x => simp [regsFit, h rfl]

/-! ### Format RR -/

theorem decodeRR_modrmByte {m : Mode} {rex : Bool} {d y : XReg} (h : regsFit m rex d y = true) (op : Op)
    (mk : Bool → XReg → XReg → Instr) (tail : List Byte) :
    decodeRR op mk (rexBits rex d y) (modrmByte 3 d y :: tail) = .ok (mk rex d y) := by
  obtain ⟨hd, hy⟩ := regOf_rmOf_modrmByte h 3
  simp only [decodeRR, modField_modrmByte, if_true, rexBits_isSome, hd, hy]

/-- What format RR admits is the encoding of a well-formed term (R76). -/
theorem decodeRR_ok {m : Mode} {rex : Option RexBits} (hm : rex.isSome = true → m = .long64) {op : Op}
    {mk : Bool → XReg → XReg → Instr} {bs : List Byte} {i : Instr} (h : decodeRR op mk rex bs = .ok i) (p : Byte) :
    ∃ d y, i = mk rex.isSome d y ∧ regsFit m rex.isSome d y = true ∧
      ∃ tail, p :: (optRexBytes rex ++ 0x0F :: 0x79 :: bs) = encodeRR p rex.isSome d y ++ tail := by
  cases bs with
  | nil => cases h
  | cons modrm tail =>
    simp only [decodeRR] at h
    split at h
    · next hmod =>
      cases h
      refine ⟨_, _, rfl, regsFit_regOf_rmOf hm modrm, tail, ?_⟩
      rw [encodeRR, rexBytes_eq, rexBits_regOf_rmOf, ← hmod, modrmByte_regOf_rmOf]
      simp
    · cases h

/-! ### Format M -/

/-- A 32-bit word is its four bytes (R41). -/
theorem d32_append_extract (v : BitVec 32) :
    v.extractLsb' 24 8 ++ v.extractLsb' 16 8 ++ v.extractLsb' 8 8 ++ v.extractLsb' 0 8 = v := by
  ext k hk
  simp only [BitVec.getElem_append, BitVec.getElem_extractLsb']
  grind

theorem d32_extract_append (b0 b1 b2 b3 : Byte) : (Disp.d32 (b3 ++ b2 ++ b1 ++ b0)).bytes = [b0, b1, b2, b3] := by
  simp only [Disp.bytes, List.cons.injEq, and_true]
  refine ⟨?_, ?_, ?_, ?_⟩
  all_goals
    ext k hk
    simp only [BitVec.getElem_extractLsb', BitVec.getLsbD_append]
    grind

theorem decodeDisp_bytes (disp : Disp) (tail : List Byte) : decodeDisp disp.mod (disp.bytes ++ tail) = some disp := by
  cases disp with
  | none => rfl
  | d8 v => rfl
  | d32 v => exact congrArg (fun w => some (Disp.d32 w)) (d32_append_extract v)

theorem decodeDisp_some {mod : BitVec 2} {rest : List Byte} {disp : Disp} (hmod : mod ≠ 3)
    (h : decodeDisp mod rest = some disp) : mod = disp.mod ∧ ∃ tail, rest = disp.bytes ++ tail := by
  unfold decodeDisp at h
  split at h
  · next h0 => cases h; exact ⟨h0, rest, rfl⟩
  split at h
  · next h1 =>
    split at h
    · next b tail => cases h; exact ⟨h1, tail, rfl⟩
    · cases h
  · next h0 h1 =>
    split at h
    · next b0 b1 b2 b3 tail =>
      cases h
      have two : ∀ q : BitVec 2, q ≠ 0 → q ≠ 1 → q ≠ 3 → q = 2 := by decide
      exact ⟨two mod h0 h1 hmod, tail, by rw [d32_extract_append]; rfl⟩
    · cases h

/-- The refusals of format M and `baseFits` say the same of a displacement (R77, R84). -/
theorem baseFits_iff (b : GReg) (disp : Disp) :
    baseFits b disp = true ↔
      BitVec.ofNat 3 b.val ≠ 4 ∧ ¬ (disp.mod = 0 ∧ BitVec.ofNat 3 b.val = 5) := by
  have low : ∀ q < 8, BitVec.ofNat 3 b.val = BitVec.ofNat 3 q ↔ b.val % 8 = q := by revert b; decide
  have four := low 4 (by omega)
  have five := low 5 (by omega)
  cases disp <;> simp [baseFits, Disp.mod, four, five]

theorem Disp.mod_ne_three (disp : Disp) : disp.mod ≠ 3 := by
  cases disp <;> simp [Disp.mod]

theorem decodeM_modrmByte {m : Mode} {rex : Bool} {b : GReg} {y : XReg} {disp : Disp} (h : regsFit m rex y b = true)
    (hb : baseFits b disp = true) (op : Op) (mk : Bool → GReg → Disp → XReg → Instr) (tail : List Byte) :
    decodeM op mk (rexBits rex y b) (modrmByte disp.mod y b :: (disp.bytes ++ tail)) = .ok (mk rex b disp y) := by
  obtain ⟨hy, hbase⟩ := regOf_rmOf_modrmByte h disp.mod
  obtain ⟨hsib, hrip⟩ := (baseFits_iff b disp).1 hb
  simp only [decodeM, modField_modrmByte, rmField_modrmByte, if_neg disp.mod_ne_three, if_neg hsib, if_neg hrip,
    decodeDisp_bytes, rexBits_isSome, hy, hbase]

/-- What format M admits is the encoding of a well-formed term (R77). -/
theorem decodeM_ok {m : Mode} {rex : Option RexBits} (hm : rex.isSome = true → m = .long64) {op : Op}
    {mk : Bool → GReg → Disp → XReg → Instr} {bs : List Byte} {i : Instr} (h : decodeM op mk rex bs = .ok i) (p : Byte) :
    ∃ b disp y, i = mk rex.isSome b disp y ∧ (regsFit m rex.isSome y b && baseFits b disp) = true ∧
      ∃ tail, p :: (optRexBytes rex ++ 0x0F :: 0x2B :: bs) = encodeM p rex.isSome b disp y ++ tail := by
  cases bs with
  | nil => cases h
  | cons modrm rest =>
    simp only [decodeM] at h
    split at h
    · cases h
    split at h
    · cases h
    split at h
    · cases h
    split at h
    · next hmod hsib hrip _ disp hdisp =>
      cases h
      obtain ⟨hdmod, tail, rfl⟩ := decodeDisp_some hmod hdisp
      have base : baseFits (rmOf rex modrm) disp = true := by
        rw [baseFits_iff, rmOf, regNum_low, ← hdmod]
        exact ⟨hsib, hrip⟩
      refine ⟨_, disp, _, rfl, by rw [regsFit_regOf_rmOf hm modrm, base]; rfl, tail, ?_⟩
      rw [encodeM, rexBytes_eq, rexBits_regOf_rmOf, ← hdmod, modrmByte_regOf_rmOf]
      simp
    · cases h

/-! ### Prefixes and the opcode map -/

/-- Behind a mandatory byte, an admitted REX and `0F` the opcode map decides (R75, R78). -/
theorem decode_prefix {m : Mode} {rex : Option RexBits} (h : rex.isSome = true → m = .long64) (p : Prefix) (rest : List Byte) :
    decode m (p.byte :: (optRexBytes rex ++ 0x0F :: rest)) = decodeOpcode p rex rest := by
  have after : decode m (p.byte :: (optRexBytes rex ++ 0x0F :: rest)) =
      decodeAfterPrefix m p (optRexBytes rex ++ 0x0F :: rest) := by cases p <;> rfl
  rw [after]
  cases rex with
  | none => rfl
  | some x =>
    obtain rfl := h rfl
    obtain ⟨r, b⟩ := x
    cases r <;> cases b <;> rfl

theorem decodeAfterPrefix_ok {m : Mode} {p : Prefix} {bs : List Byte} {i : Instr} (h : decodeAfterPrefix m p bs = .ok i) :
    ∃ rex rest, (rex.isSome = true → m = .long64) ∧ bs = optRexBytes rex ++ 0x0F :: rest ∧
      decodeOpcode p rex rest = .ok i := by
  have rexByte : ∀ b : Byte, isRex b = true → (b.getLsbD 3 || b.getLsbD 1) = false →
      b = RexBits.byte { r := b.getLsbD 2, b := b.getLsbD 0 } := by decide
  cases bs with
  | nil => cases h
  | cons b rest =>
    simp only [decodeAfterPrefix] at h
    split at h
    · next hb => subst hb; exact ⟨none, rest, nofun, rfl, h⟩
    split at h
    · next hrex =>
      simp only [decodeRex] at h
      split at h
      · cases h
      split at h
      · cases h
      split at h
      · cases h
      split at h
      · next hm hwx _ c rest' hc =>
        subst hc
        refine ⟨_, rest', fun _ => ?_, ?_, h⟩
        · cases m
          · rfl
          · exact absurd rfl hm
        · rw [optRexBytes, Option.map_some, ← rexByte b hrex (by simpa using hwx)]; rfl
      · cases h
    · cases h

theorem prefixOf_some {b : Byte} {p : Prefix} (h : prefixOf b = some p) : b = p.byte := by
  unfold prefixOf at h
  split at h
  · next hb => cases h; exact hb
  split at h
  · next hb => cases h; exact hb
  split at h
  · next hb => cases h; exact hb
  · cases h

theorem decodeFence_ok {bs : List Byte} {i : Instr} (h : decodeFence bs = .ok i) :
    i = .sfence ∧ ∃ tail, bs = 0xAE :: 0xF8 :: tail := by
  unfold decodeFence decodeFenceModrm at h
  split at h
  · cases h
  split at h
  · next hop =>
    subst hop
    split at h
    · cases h
    split at h
    · next hmodrm => cases h; subst hmodrm; exact ⟨rfl, _, rfl⟩
    · cases h
  · cases h

/-- The opcode map gives well-formed instructions, and the bytes it has read are their encodings (R82, R84). -/
theorem decodeOpcode_ok {m : Mode} {p : Prefix} {rex : Option RexBits} (hm : rex.isSome = true → m = .long64)
    {bs : List Byte} {i : Instr} (h : decodeOpcode p rex bs = .ok i) :
    i.wellFormed m = true ∧ ∃ tail, p.byte :: (optRexBytes rex ++ 0x0F :: bs) = encode i ++ tail := by
  cases bs with
  | nil => cases h
  | cons op rest =>
    simp only [decodeOpcode] at h
    split at h
    · next hop =>
      subst hop
      cases p with
      | p66 => obtain ⟨d, y, rfl, hwf, henc⟩ := decodeRR_ok hm h 0x66; exact ⟨hwf, henc⟩
      | pF2 => obtain ⟨d, y, rfl, hwf, henc⟩ := decodeRR_ok hm h 0xF2; exact ⟨hwf, henc⟩
      | pF3 => cases h
    split at h
    · next hop =>
      subst hop
      cases p with
      | p66 => cases h
      | pF2 => obtain ⟨b, disp, y, rfl, hwf, henc⟩ := decodeM_ok hm h 0xF2; exact ⟨hwf, henc⟩
      | pF3 => obtain ⟨b, disp, y, rfl, hwf, henc⟩ := decodeM_ok hm h 0xF3; exact ⟨hwf, henc⟩
    split at h
    · cases p with
      | p66 => cases rest <;> cases h
      | pF2 => cases h
      | pF3 => cases h
    · cases h

/-! ### The decoder and the encoder -/

theorem rexBits_long64 {m : Mode} {rex : Bool} {reg rm : Fin 16} (h : regsFit m rex reg rm = true)
    (hrex : (rexBits rex reg rm).isSome = true) : m = .long64 := by
  rw [rexBits_isSome] at hrex
  simpa [regsFit, hrex] using h

theorem decode_encodeRR {m : Mode} {rex : Bool} {d y : XReg} (h : regsFit m rex d y = true) (p : Prefix) (tail : List Byte) :
    decode m (encodeRR p.byte rex d y ++ tail) = decodeOpcode p (rexBits rex d y) (0x79 :: modrmByte 3 d y :: tail) := by
  rw [encodeRR, rexBytes_eq, List.cons_append, List.append_assoc]
  exact decode_prefix (rexBits_long64 h) p _

theorem decode_encodeM {m : Mode} {rex : Bool} {b : GReg} {y : XReg} (h : regsFit m rex y b = true) (p : Prefix)
    (disp : Disp) (tail : List Byte) :
    decode m (encodeM p.byte rex b disp y ++ tail) =
      decodeOpcode p (rexBits rex y b) (0x2B :: modrmByte disp.mod y b :: (disp.bytes ++ tail)) := by
  rw [encodeM, rexBytes_eq, List.cons_append, List.append_assoc, List.append_assoc]
  exact decode_prefix (rexBits_long64 h) p _

/-- A well-formed instruction's bytes decode to it, whatever follows them (R75 to R82). -/
theorem decode_encode {m : Mode} {i : Instr} (h : i.wellFormed m = true) (tail : List Byte) :
    decode m (encode i ++ tail) = .ok i := by
  cases i with
  | extrq rex d y => exact (decode_encodeRR h .p66 tail).trans (decodeRR_modrmByte h _ _ tail)
  | insertq rex d y => exact (decode_encodeRR h .pF2 tail).trans (decodeRR_modrmByte h _ _ tail)
  | movntsd rex b disp y =>
    obtain ⟨hfit, hbase⟩ := Bool.and_eq_true_iff.1 h
    exact (decode_encodeM hfit .pF2 disp tail).trans (decodeM_modrmByte hfit hbase _ _ tail)
  | movntss rex b disp y =>
    obtain ⟨hfit, hbase⟩ := Bool.and_eq_true_iff.1 h
    exact (decode_encodeM hfit .pF3 disp tail).trans (decodeM_modrmByte hfit hbase _ _ tail)
  | sfence => rfl

/-- What the decoder admits is well-formed, and its encoding stands first in the bytes (R75 to R84). -/
theorem decode_ok {m : Mode} {bs : List Byte} {i : Instr} (h : decode m bs = .ok i) :
    i.wellFormed m = true ∧ ∃ tail, bs = encode i ++ tail := by
  cases bs with
  | nil => cases h
  | cons b rest =>
    simp only [decode] at h
    split at h
    · next hb =>
      obtain ⟨rfl, tail, rfl⟩ := decodeFence_ok h
      exact ⟨rfl, tail, by rw [hb]; rfl⟩
    split at h
    · next p hp =>
      obtain ⟨rex, rest, hm, rfl, hop⟩ := decodeAfterPrefix_ok h
      rw [prefixOf_some hp]
      exact decodeOpcode_ok hm hop
    · split at h <;> cases h

end Sys2Proof
end

section
/-! PROOFS. What each turn of the agenda comes to: the fetch of an instruction that stands at the pc, and the host's switch. -/

namespace Sys2Proof.Machine

open Sys2Proof.Claims

/-! ### The fetch -/

/-- Every instruction has an encoding of its length, from 3 to `maxLength` bytes (R86). -/
theorem encoding_length (i : Instr) : Laws.EncodingLength.Statement i := by
  cases i with
  | extrq rex d y => exact Laws.EncodingLength.extrq rex d y
  | insertq rex d y => exact Laws.EncodingLength.insertq rex d y
  | movntsd rex b disp y => exact Laws.EncodingLength.movntsd rex b disp y
  | movntss rex b disp y => exact Laws.EncodingLength.movntss rex b disp y
  | sfence => exact Laws.EncodingLength.sfence

/-- Bytes that stand at the pc are the first that the fetch takes (R41, R44). -/
theorem fetchBytes_standAtPc {s : State} {bs : List Byte} (h : standAtPc s bs bs.length) (hl : bs.length ≤ maxLength) :
    ∃ tail, (s.fetchBytes maxLength (wrap s.mode s.cur.pc)).1 = bs ++ tail := by
  rw [State.fetchBytes_stand (wrap_wrap ..) hl le_rfl fun k hk => by rw [wrap_add_left]; exact h k hk, List.take_length]
  exact ⟨_, rfl⟩

/-- The fetch gives the instruction whose bytes stand at the pc (R44, R57). -/
theorem fetch_standAtPc {s : State} {i : Instr} (hwf : i.wellFormed s.mode = true) (h : standAtPc s (encode i) i.length) :
    s.fetch = .instr i := by
  obtain ⟨hlen, -, hmax⟩ := encoding_length i
  rw [← hlen] at h hmax
  obtain ⟨tail, htail⟩ := fetchBytes_standAtPc h hmax
  simp only [State.fetch, htail, decode_encode hwf]

/-- A thread that has not ended executes the instruction it fetches (R6). -/
theorem issue_of_fetch {s : State} {i : Instr} (he : s.cur.ended = false) (h : s.fetch = .instr i) : issue s = exec i s := by
  simp [issue, he, h]

/-! ### The host's switch -/

/-- Where identities are distinct, a thread is found by its own. -/
theorem find_id_of_mem {l : List Thread} (hn : (l.map Thread.id).Nodup) {u : Thread} (hu : u ∈ l) :
    l.find? (fun t => t.id == u.id) = some u := by
  induction l with
  | nil => cases hu
  | cons c l ih =>
    obtain ⟨hc, hl⟩ := List.nodup_cons.1 hn
    rcases List.mem_cons.1 hu with rfl | hu
    · simp
    · have hne : c.id ≠ u.id := fun he => hc (he ▸ List.mem_map_of_mem hu)
      simpa [hne] using ih hl hu

/-- A switch to a thread of the machine makes it the issuing one and changes nothing else (R6, R178). -/
theorem hostSwitch_of_mem {s : State} (hn : (s.threads.map Thread.id).Nodup) {u : Thread} (hu : u ∈ s.threads) :
    ∃ os, hostSwitch u.id s = .next { s with cur := u, others := os } ∧ (u :: os).Perm s.threads := by
  obtain ⟨hc, ho⟩ := List.nodup_cons.1 hn
  rcases List.mem_cons.1 hu with rfl | hu
  · exact ⟨s.others, by simp [hostSwitch], .rfl⟩
  · have hne : s.cur.id ≠ u.id := fun he => hc (he ▸ List.mem_map_of_mem hu)
    have hfind := find_id_of_mem ho hu
    exact ⟨_, by simp only [hostSwitch, if_neg hne, hfind], switch_perm hfind⟩

end Sys2Proof.Machine
end

section
/-! PROOFS. The obligations of the family 00_scope.md. -/

namespace Sys2Proof.Proofs

open Sys2Proof.Machine Sys2Proof.Claims

theorem legacy_regsFit {rex : Bool} {reg rm : Fin 16} (h : regsFit .legacy32 rex reg rm = true) :
    rex = false ∧ reg.val < 8 ∧ rm.val < 8 := by
  cases rex with
  | true => cases h
  | false => simpa [regsFit] using h

/-- Settles O7: what the decoder gives is well-formed, and in `Legacy32` that leaves no REX and three bits for a register. -/
theorem legacyRegistersBelowEight : Obligations.LegacyRegistersBelowEight := by
  intro bs
  constructor
  · rintro rex d y (h | h) <;> exact legacy_regsFit (decode_ok h).1
  · intro rex b disp y h
    have hfit : regsFit .legacy32 rex y b = true := by
      rcases h with h | h <;> exact (Bool.and_eq_true_iff.1 (decode_ok h).1).1
    obtain ⟨hrex, hy, hb⟩ := legacy_regsFit hfit
    exact ⟨hrex, hb, hy⟩

/-- Settles O43: the turn is a switch, which finds the thread by its identity and exchanges it with the issuing one. -/
theorem switchKeepsEveryThread : Obligations.SwitchKeepsEveryThread := by
  intro s u rest hr hn hu ha
  obtain ⟨os, hswitch, hperm⟩ := hostSwitch_of_mem (s := { s with agenda := rest }) hn hu
  exact ⟨_, (step_host hr ha).trans hswitch, rfl, hperm, rfl, rfl⟩

/-- Settles O8: both turns issue, and the fetch, which the agenda does not touch, gives the instruction at the pc. -/
theorem stepRunsDecodedInstruction : Obligations.StepRunsDecodedInstruction := by
  intro s i rest hr he hwf hstand
  have hfetch := fetch_standAtPc hwf hstand
  constructor
  · intro ha
    exact (step_nil hr ha).trans (issue_of_fetch he hfetch)
  · intro ha
    exact (step_issue hr ha).trans (issue_of_fetch he ((State.fetch_agenda s rest).trans hfetch))

/-- Settles O14: each bit by the law of `mask`, and all 64 of them for `Mask(64)`. -/
theorem maskOnes : Obligations.MaskOnes := by
  refine ⟨fun len k _ hl _ => getLsbD_mask hl, ?_⟩
  refine BitVec.eq_of_getLsbD_eq fun k hk => ?_
  rw [getLsbD_mask le_rfl, BitVec.getLsbD_allOnes]

end Sys2Proof.Proofs
end

section
/-! PROOFS. What a completed step leaves alone: the frame of an instruction, threads found by their identity, the legality of the
state, the pc, and the general registers (10_state.md R20 to R30). -/

namespace Sys2Proof.Machine

open Sys2Proof.Claims

/-! ### The frame of an instruction -/

/-- From `s` to `t` only memory, the issuing thread and the books of the run change, and that thread keeps its identity and what it
may write (R24, R48, R178). -/
structure SameFrame (s t : State) : Prop where
  platform : t.platform = s.platform
  others   : t.others = s.others
  faults   : t.faults = s.faults
  id       : t.cur.id = s.cur.id
  windows  : t.cur.windows = s.cur.windows

/-- An instruction changes no parameter, no other thread and no fault entry. -/
theorem exec_sameFrame {i : Instr} {s t : State} (h : exec i s = .next t) : SameFrame s t := by
  obtain ⟨_, _, _, -, rfl⟩ | ⟨_, _, _, _, -, -, -, -, rfl⟩ | ⟨-, rfl⟩ := exec_next_cases h <;> exact ⟨rfl, rfl, rfl, rfl, rfl⟩

/-- No instruction writes a general register (R20). -/
theorem exec_keeps_g {i : Instr} {s t : State} (h : exec i s = .next t) : t.cur.g = s.cur.g := by
  obtain ⟨_, _, _, -, rfl⟩ | ⟨_, _, _, _, -, -, -, -, rfl⟩ | ⟨-, rfl⟩ := exec_next_cases h <;> rfl

/-- No instruction changes what its thread's fetch sees of its own (R57). -/
theorem exec_keeps_imem {i : Instr} {s t : State} (h : exec i s = .next t) : t.cur.imem = s.cur.imem := by
  obtain ⟨_, _, _, -, rfl⟩ | ⟨_, _, _, _, -, -, -, -, rfl⟩ | ⟨-, rfl⟩ := exec_next_cases h <;> rfl

/-- An instruction that completes moves the pc behind itself (R22). -/
theorem exec_pc {i : Instr} {s t : State} (h : exec i s = .next t) :
    t.cur.pc = wrap s.mode (s.cur.pc + BitVec.ofNat 64 i.length) := by
  obtain ⟨_, _, _, -, rfl⟩ | ⟨_, _, _, _, -, -, -, -, rfl⟩ | ⟨rfl, rfl⟩ := exec_next_cases h <;> rfl

/-- An instruction keeps memory in canonical form. -/
theorem exec_keeps_mem_wf {i : Instr} {s t : State} (h : exec i s = .next t) (hm : s.mem.wf) : t.mem.wf := by
  obtain ⟨_, _, _, -, rfl⟩ | ⟨_, _, _, _, -, -, -, -, rfl⟩ | ⟨-, rfl⟩ := exec_next_cases h
  · exact hm
  · exact hm
  · exact wf_commitEntries _ (wf_drainStores _ hm _) _

/-- What an instruction does to its thread's entries: a bit-field instruction nothing, a streaming store appends the one it issues,
and SFENCE leaves none (R132, R151). -/
theorem exec_nt_cases {i : Instr} {s t : State} (h : exec i s = .next t) :
    t.cur.nt = s.cur.nt ∨
      (∃ e : NTEntry, (i.op = .movntsd ∨ i.op = .movntss) ∧ t.cur.nt = s.cur.nt ++ [e] ∧ e.legal s.platform s.cur ∧
        ∀ a ∈ byteAddrs s.mode e.addr e.n, a ∉ s.allPending) ∨
      (i = .sfence ∧ t.cur.nt = []) := by
  obtain ⟨_, _, _, -, rfl⟩ | ⟨n, b, disp, y, hop, hvalid, halign, hclear, rfl⟩ | ⟨rfl, rfl⟩ := exec_next_cases h
  · exact .inl rfl
  · refine .inr (.inl ⟨_, hop.imp And.right And.right, rfl, ⟨?_, littleEndian_length .., wrap_wrap .., ?_, hvalid⟩, hclear⟩)
    · exact hop.symm.imp And.left And.left
    · exact fun hpolicy => halign.resolve_right (by simp [hpolicy])
  · exact .inr (.inr ⟨rfl, rfl⟩)

/-! ### Threads found by their identity -/

/-- Where identities are distinct, the thread found is the one that has the identity. -/
theorem find_id_eq_some {l : List Thread} (hn : (l.map Thread.id).Nodup) {a : Nat} {u : Thread} :
    l.find? (fun t => t.id == a) = some u ↔ u ∈ l ∧ u.id = a := by
  constructor
  · exact fun h => ⟨List.mem_of_find?_eq_some h, by simpa using List.find?_some h⟩
  · rintro ⟨hu, rfl⟩
    exact find_id_of_mem hn hu

/-- Where identities are distinct, the order of the threads decides nothing about which one is found (R178). -/
theorem State.findThread_of_perm {s t : State} (hn : (s.threads.map Thread.id).Nodup) (hp : t.threads.Perm s.threads) (a : Nat) :
    t.findThread a = s.findThread a := by
  have hn' : (t.threads.map Thread.id).Nodup := (hp.map _).nodup_iff.2 hn
  refine Option.ext fun u => ?_
  rw [State.findThread, State.findThread, find_id_eq_some hn', find_id_eq_some hn, hp.mem_iff]

/-- Within the frame, a thread is found to hold what it held, unless it is the issuing one and holds something else. -/
theorem SameFrame.findThread_map {α : Type} {s t : State} (h : SameFrame s t) {f : Thread → α} {a : Nat}
    (hf : s.cur.id = a → f t.cur = f s.cur) : (t.findThread a).map f = (s.findThread a).map f := by
  simp only [State.findThread, State.threads, List.find?_cons, h.others, h.id]
  cases ha : s.cur.id == a
  · rfl
  · exact congrArg some (hf (beq_iff_eq.1 ha))

/-- The issuing thread's entries are the ones that its identity gives. -/
theorem State.ntOf_cur (s : State) : s.ntOf s.cur.id = s.cur.nt := by
  simp [State.ntOf, State.findThread, State.threads]

/-- Within the frame, the other threads keep their entries, and the issuing one does if its own are the same. -/
theorem SameFrame.ntOf_eq {s t : State} (h : SameFrame s t) {a : Nat} (hnt : s.cur.id = a → t.cur.nt = s.cur.nt) :
    t.ntOf a = s.ntOf a := by
  rw [State.ntOf, State.ntOf, h.findThread_map hnt]

theorem State.modifyThread_threads (s : State) (a : Nat) (f : Thread → Thread) :
    (s.modifyThread a f).threads = s.threads.map fun t => if t.id = a then f t else t := rfl

/-- A drained store buffer is no part of what `f` reads off a thread: an identity, pending entries, windows. -/
theorem ite_storeBuf {α : Type} {f : Thread → α} (hf : ∀ (t : Thread) (buf : List BufferedStore), f { t with storeBuf := buf } = f t)
    (a : Nat) (rest : List BufferedStore) (t : Thread) :
    f (if t.id = a then { t with storeBuf := rest } else t) = f t := by
  split
  · exact hf t rest
  · rfl

/-- No action of the host changes a thread's entries or what it may write (R24, R27, R171). -/
theorem hostAct_findThread_map {act : HostAct} {s t : State} (h : hostAct act s = .next t) (hn : (s.threads.map Thread.id).Nodup)
    (a : Nat) :
    (t.findThread a).map (fun u => (u.nt, u.windows)) = (s.findThread a).map (fun u => (u.nt, u.windows)) := by
  obtain ⟨b, u, -, hu, rfl⟩ | ⟨b, u, e, rest, -, -, -, rfl⟩ | ⟨hp, ho, hf, hid, hnt, hw, -⟩ := hostAct_next_cases h
  · rw [State.findThread_of_perm hn (t := { s with cur := u, others := _ }) (switch_perm hu)]
  · exact find_map_thread s.threads (ite_storeBuf (fun _ _ => rfl) b rest) (ite_storeBuf (fun _ _ => rfl) b rest) a
  · exact SameFrame.findThread_map ⟨hp, ho, hf, hid, hw⟩ fun _ => by rw [hnt, hw]

theorem hostAct_ntOf {act : HostAct} {s t : State} (h : hostAct act s = .next t) (hn : (s.threads.map Thread.id).Nodup) (a : Nat) :
    t.ntOf a = s.ntOf a := by
  simpa [State.ntOf, Function.comp_def] using
    congrArg (fun o => (o.map Prod.fst).getD []) (hostAct_findThread_map h hn a)

theorem hostAct_windows {act : HostAct} {s t : State} (h : hostAct act s = .next t) (hn : (s.threads.map Thread.id).Nodup)
    (a : Nat) : (t.findThread a).map Thread.windows = (s.findThread a).map Thread.windows := by
  simpa [Function.comp_def] using congrArg (Option.map Prod.snd) (hostAct_findThread_map h hn a)

/-- No action of the host changes a parameter of the machine (R24). -/
theorem hostAct_platform {act : HostAct} {s t : State} (h : hostAct act s = .next t) : t.platform = s.platform := by
  obtain ⟨_, _, -, -, rfl⟩ | ⟨_, _, _, _, -, -, -, rfl⟩ | ⟨hp, -⟩ := hostAct_next_cases h
  · rfl
  · rfl
  · exact hp

/-! ### The legality of the state -/

/-- `AllPending` is what the issuing thread holds and what the others hold (R28). -/
theorem State.allPending_eq (s : State) :
    s.allPending = s.cur.pendingBytes s.mode ++ s.others.flatMap fun t => t.pendingBytes s.mode := rfl

/-- Within the frame, the state stays legal if memory, the issuing thread and the pending bytes do. -/
theorem SameFrame.legal {s t : State} (h : SameFrame s t) (hs : s.legal) (hmem : t.mem.wf) (hcur : t.cur.legal s.platform)
    (hpending : t.allPending.Nodup) : t.legal := by
  obtain ⟨-, hthreads, hids, hfaults, -⟩ := hs
  refine ⟨hmem, ?_, ?_, h.faults ▸ hfaults, hpending⟩
  · rw [State.threads, h.others, h.platform]
    exact List.forall_mem_cons.2 ⟨hcur, (List.forall_mem_cons.1 hthreads).2⟩
  · rw [State.threads, List.map_cons, h.id, h.others]
    exact hids

/-- Within the frame, the same entries are the same pending bytes. -/
theorem SameFrame.allPending_eq {s t : State} (h : SameFrame s t) (hnt : t.cur.nt = s.cur.nt) : t.allPending = s.allPending := by
  simp only [State.allPending_eq, Thread.pendingBytes, State.mode, h.platform, h.others, hnt]

/-- Within the frame, a legal entry stays legal. -/
theorem SameFrame.entry_legal {s t : State} (h : SameFrame s t) {e : NTEntry} (he : e.legal s.platform s.cur) :
    e.legal s.platform t.cur := by
  simpa only [NTEntry.legal, Thread.validWrite, h.windows] using he

/-- Within the frame, an entry that meets no pending byte leaves no byte pending twice (R132). -/
theorem SameFrame.nodup_allPending_append {s t : State} (h : SameFrame s t) {e : NTEntry} (hn : e.n ≤ 2 ^ 32)
    (hnt : t.cur.nt = s.cur.nt ++ [e]) (hclear : ∀ a ∈ byteAddrs s.mode e.addr e.n, a ∉ s.allPending)
    (hs : s.allPending.Nodup) : t.allPending.Nodup := by
  have hperm : t.allPending.Perm (byteAddrs s.mode e.addr e.n ++ s.allPending) := by
    simp only [State.allPending_eq, Thread.pendingBytes, State.mode, h.platform, h.others, hnt, List.flatMap_append,
      List.flatMap_singleton, ← List.append_assoc]
    exact List.perm_append_comm.append_right _
  exact hperm.nodup_iff.2 (List.Nodup.append (byteAddrs_nodup _ _ hn) hs hclear)

/-- An instruction that completes leaves a legal state legal (R21, R27, R132, R151). -/
theorem exec_keeps_legal {i : Instr} {s t : State} (h : exec i s = .next t) (hs : s.legal) : t.legal := by
  have frame := exec_sameFrame h
  have ⟨hmem, hthreads, _, _, hpending⟩ := hs
  obtain ⟨-, hg, himem, hnt⟩ := hthreads s.cur List.mem_cons_self
  have legal_of_nt (hentries : ∀ e ∈ t.cur.nt, e.legal s.platform s.cur) (hnodup : t.allPending.Nodup) : t.legal := by
    refine frame.legal hs (exec_keeps_mem_wf h hmem) ⟨?_, exec_keeps_g h ▸ hg, exec_keeps_imem h ▸ himem, ?_⟩ hnodup
    · rw [exec_pc h, wrap_wrap]
    · exact fun e he => frame.entry_legal (hentries e he)
  obtain hsame | ⟨e, -, happend, he, hclear⟩ | ⟨-, hempty⟩ := exec_nt_cases h
  · exact legal_of_nt (hsame ▸ hnt) (frame.allPending_eq hsame ▸ hpending)
  · have hn : e.n ≤ 2 ^ 32 := by rcases he.1 with hn | hn <;> omega
    refine legal_of_nt ?_ (frame.nodup_allPending_append hn happend hclear hpending)
    rw [happend]
    exact List.forall_mem_append.2 ⟨hnt, List.forall_mem_singleton.2 he⟩
  · refine legal_of_nt (by simp [hempty]) ?_
    rw [State.allPending_eq] at hpending
    simpa [State.allPending_eq, Thread.pendingBytes, State.mode, hempty, frame.platform, frame.others]
      using hpending.of_append_right

/-- Neither the order of the threads nor what waits in their store buffers decides anything about legality (R178). -/
theorem legal_of_threads {s t : State} (hs : s.legal) {g : Thread → Thread} (hg : ∀ u, ∃ buf, g u = { u with storeBuf := buf })
    (hthreads : t.threads.Perm (s.threads.map g)) (hplatform : t.platform = s.platform) (hfaults : t.faults = s.faults)
    (hmem : t.mem.wf) : t.legal := by
  obtain ⟨-, hlegal, hids, hset, hpending⟩ := hs
  refine ⟨hmem, fun u hu => ?_, ?_, hfaults ▸ hset, ?_⟩
  · obtain ⟨v, hv, rfl⟩ := List.mem_map.1 (hthreads.mem_iff.1 hu)
    obtain ⟨buf, hbuf⟩ := hg v
    rw [hbuf, hplatform]
    exact hlegal v hv
  · have hid : Thread.id ∘ g = Thread.id := funext fun v => by obtain ⟨buf, hbuf⟩ := hg v; rw [Function.comp_apply, hbuf]
    rw [(hthreads.map Thread.id).nodup_iff, List.map_map, hid]
    exact hids
  · have hbytes : ∀ v, (g v).pendingBytes t.mode = v.pendingBytes s.mode := fun v => by
      obtain ⟨buf, hbuf⟩ := hg v
      rw [hbuf, State.mode, hplatform]; rfl
    rw [State.allPending, (hthreads.flatMap_right _).nodup_iff, List.flatMap_map, funext hbytes]
    exact hpending

/-- An action of the host leaves a legal state legal (R20, R21, R171). -/
theorem hostAct_keeps_legal {act : HostAct} {s t : State} (h : hostAct act s = .next t) (hs : s.legal) : t.legal := by
  have ⟨hmem, hthreads, _, _, hpending⟩ := hs
  obtain ⟨a, u, -, hu, rfl⟩ | ⟨a, u, e, rest, -, -, -, rfl⟩ | ⟨hp, ho, hf, hid, hnt, hw, hmem', himem', hpc', hg'⟩ :=
    hostAct_next_cases h
  · refine legal_of_threads hs (g := id) (fun v => ⟨v.storeBuf, rfl⟩) ?_ rfl rfl hmem
    exact List.map_id _ ▸ switch_perm hu
  · refine legal_of_threads hs (fun v => ?_) (.of_eq (State.modifyThread_threads ..)) rfl rfl (Memory.wf_writeBytes _ hmem _ _)
    split
    · exact ⟨rest, rfl⟩
    · exact ⟨v.storeBuf, rfl⟩
  · have frame : SameFrame s t := ⟨hp, ho, hf, hid, hw⟩
    obtain ⟨hpc, hg, himem, hentries⟩ := hthreads s.cur List.mem_cons_self
    refine frame.legal hs (hmem' hmem) ⟨hpc' hpc, hg' hg, himem' himem, ?_⟩ (frame.allPending_eq hnt ▸ hpending)
    rw [hnt]
    exact fun e he => frame.entry_legal (hentries e he)

end Sys2Proof.Machine
end

section
/-! PROOFS. The fault record and the registers after a step, and instructions under other general registers. -/

namespace Sys2Proof.Machine

open Sys2Proof.Claims

/-! ### The fault record -/

theorem State.mem_recordFault {s : State} {f e : Fault} (h : e ∈ s.faults) : e ∈ (s.recordFault f).faults := by
  unfold State.recordFault
  split
  · exact h
  · exact List.mem_append_left _ h

@[simp] theorem State.markRefused_faults (s : State) (r : Refusal) : (s.markRefused r).faults = s.faults := by
  unfold State.markRefused
  split <;> rfl

/-! ### What a bit-field instruction writes -/

/-- A bit-field instruction writes one operand register (R12). -/
theorem fieldState_get (s : State) (i : Instr) (d r : XReg) (c : Word) (f : Nat → Nat → Word) :
    (fieldState s i d c f).cur.x.get r =
      if r = d then (s.cur.x.get d).wrote (Config.draw (s.draws + laneDraws c)) (laneValue s c f) else s.cur.x.get r :=
  State.setX_get ..

/-- Both bit-field instructions leave a state of one shape. -/
theorem exec_bitField_eq {s t : State} {rex : Bool} {d y : XReg}
    (h : exec (.extrq rex d y) s = .next t ∨ exec (.insertq rex d y) s = .next t) : ∃ i c f, t = fieldState s i d c f := by
  rcases h with h | h
  · exact ⟨_, _, _, (exec_extrq_eq_next.1 h).2.symm⟩
  · exact ⟨_, _, _, (exec_insertq_eq_next.1 h).2.symm⟩

/-! ### Other general registers -/

/-- Checks that the general registers do not enter answer as before, and so does the end of the step (R170). -/
theorem State.complete_withG (s t : State) (g : Vector Word 16) (checks : List (Option Fault)) :
    (withG s g).complete checks (withG t g) = mapNext (fun u => withG u g) (s.complete checks t) := by
  unfold State.complete
  cases checks.findSome? id <;> rfl

/-- What does not read the general registers finds the same thread. -/
theorem State.find_id_withG (s : State) (g : Vector Word 16) {p : Thread → Bool} (hp : p (withG s g).cur = p s.cur) :
    ((withG s g).threads.find? p).map Thread.id = (s.threads.find? p).map Thread.id := by
  rw [State.threads, State.threads, List.find?_cons, List.find?_cons, hp]
  cases p s.cur <;> rfl

/-- Whether a byte is pending, and who holds it, does not depend on the general registers (R28). -/
theorem State.unfenced_withG (s : State) (g : Vector Word 16) (access : Access) (addr : Addr) (n : Nat) :
    (withG s g).unfenced access addr n = s.unfenced access addr n :=
  congrArg (Option.map _) (State.find_id_withG s g rfl)

theorem State.bitField_withG (s : State) (g : Vector Word 16) (i : Instr) (d : XReg) (reads : List (XReg × LaneNo)) (c : Word)
    (f : Nat → Nat → Word) :
    (withG s g).bitField i d reads c f = mapNext (fun t => withG t g) (s.bitField i d reads c f) := by
  rw [State.bitField, State.bitField, State.finishField_eq, State.finishField_eq]
  exact State.complete_withG s (fieldState s i d c f) g _

/-- A streaming store reads no general register but its base (R80, R131). -/
theorem State.streamStore_withG {s : State} {g : Vector Word 16} {b : GReg} (hb : g.get b = s.cur.g.get b) (i : Instr) (n : Nat)
    (disp : Disp) (y : XReg) :
    (withG s g).streamStore i n b disp y = mapNext (fun t => withG t g) (s.streamStore i n b disp y) := by
  have hea : (withG s g).effectiveAddress b disp = s.effectiveAddress b disp := by
    simp only [State.effectiveAddress, hb]
  rw [State.streamStore, State.streamStore, hea, State.unfenced_withG]
  exact State.complete_withG s (storeState s i n b disp y) g _

end Sys2Proof.Machine
end

section
/-! PROOFS. The obligations of the family 10_state.md. -/

namespace Sys2Proof.Proofs

open Sys2Proof.Machine Sys2Proof.Claims

/-- Settles O46: the turn taken is no part of the invariant, and both an instruction and an action of the host keep it. -/
theorem stepKeepsLegal : Obligations.StepKeepsLegal := by
  intro s t hs h
  obtain ⟨-, u, ⟨rest, rfl⟩, ⟨-, rfl⟩ | ⟨-, i, -, hexec⟩ | ⟨act, hact⟩⟩ := step_next_cases h
  · exact hs
  · exact exec_keeps_legal hexec hs
  · exact hostAct_keeps_legal hact hs

/-- Settles O49: only an instruction changes entries, its frame leaves those of every other thread, and the three kinds of
instruction do to its own thread's entries what the statement says. -/
theorem pendingChangesOnlyByStoreAndFence : Obligations.PendingChangesOnlyByStoreAndFence := by
  intro s t a hn h hchanged
  obtain ⟨-, u, ⟨rest, rfl⟩, ⟨-, rfl⟩ | ⟨-, i, hfetch, hexec⟩ | ⟨act, hact⟩⟩ := step_next_cases h
  · exact absurd rfl hchanged
  · have frame := exec_sameFrame hexec
    have ha : a = s.cur.id := by
      by_contra hne
      exact hchanged (frame.ntOf_eq fun he => absurd he.symm hne)
    subst ha
    refine ⟨rfl, i, State.fetch_agenda s rest ▸ hfetch, ?_⟩
    have hnt : t.ntOf s.cur.id = t.cur.nt := frame.id ▸ t.ntOf_cur
    rw [hnt, s.ntOf_cur]
    obtain hsame | ⟨e, hop, happend, -⟩ | ⟨hfence, hempty⟩ := exec_nt_cases hexec
    · exact absurd (frame.ntOf_eq fun _ => hsame) hchanged
    · exact .inl ⟨hop, e, happend⟩
    · exact .inr ⟨hfence, hempty⟩
  · exact absurd (hostAct_ntOf hact hn a) hchanged

/-- Settles O12: a step that completes had nothing in the record, and recording or refusing removes nothing from it. -/
theorem faultRecordOnlyGrows : Obligations.FaultRecordOnlyGrows := by
  intro s f hf
  refine ⟨?_, fun hfinal => List.not_mem_nil (hfinal.2.1 ▸ hf)⟩
  unfold afterStep
  cases h : step s with
  | next t =>
    obtain ⟨⟨-, hnone⟩, -⟩ := step_next_cases h
    exact absurd (hnone ▸ hf) List.not_mem_nil
  | fault e => exact State.mem_recordFault hf
  | refused r => simpa using hf

/-- Settles O13: every instruction that completes adds its length, which is that of its encoding, and a fault changes the record
alone. -/
theorem pcMovesByTheLength : Obligations.PcMovesByTheLength := by
  intro i s
  constructor
  · intro t h
    rw [exec_pc h, wrap_toNat, (encoding_length i).1, BitVec.toNat_add, BitVec.toNat_ofNat]
    cases s.mode <;> simp only [addrWidth] <;> omega
  · intro f h
    rw [h, State.settle_fault, State.recordFault_cur]

/-- Settles O27: both instructions leave the state `fieldState`, which writes one operand register, the pc and the count of draws. -/
theorem bitFieldFrame : Obligations.BitFieldFrame := by
  intro s t rex d y h
  obtain ⟨i, c, f, rfl⟩ := exec_bitField_eq h
  refine ⟨fun r hr => ?_, ?_, fun _ => rfl, rfl, rfl, rfl, rfl, rfl, rfl, rfl, rfl, rfl, rfl, rfl, rfl, rfl⟩
  · rw [fieldState_get, if_neg hr]
  · rw [fieldState_get, if_pos rfl, XEntry.wrote_upper]

/-- Settles O40: the one check of each access is that of R50, so the step completes, and reading is total. -/
theorem accessesClearOfPendingBytesComplete : Obligations.AccessesClearOfPendingBytesComplete := by
  rintro s addr n bytes rest hr hclear rfl
  have completes (access : Access) (t : State) :
      State.complete { s with agenda := rest } [State.unfenced { s with agenda := rest } access addr bytes.length] t = .next t := by
    have hcheck : State.unfenced { s with agenda := rest } access addr bytes.length = none :=
      State.unfenced_eq_none.2 fun a ha hp => hclear ⟨a, ha, hp⟩
    rw [hcheck, State.complete_none, State.complete_nil]
  have hlen (m : Memory) : (m.readAll (byteAddrs s.mode addr bytes.length)).length = bytes.length := by
    rw [Memory.readAll_length, byteAddrs_length]
  refine ⟨fun ha => ?_, fun ha => ?_, fun ha => ?_⟩
  · exact ⟨_, hlen s.loadView, fun k => Memory.readAll_byteAddrs_getElem? _ _ _, (step_host hr ha).trans (completes ..)⟩
  · exact ⟨_, hlen s.mem, fun k => Memory.readAll_byteAddrs_getElem? _ _ _, (step_host hr ha).trans (completes ..)⟩
  · refine ⟨_, (step_host hr ha).trans (completes ..), ?_⟩
    cases s.platform.ordinaryMM <;> exact ⟨rfl, rfl⟩

/-- Settles O50: parameters are in the frame of an instruction, and no action of the host changes one. -/
theorem parametersNeverChange : Obligations.ParametersNeverChange := by
  intro s t hn h
  obtain ⟨-, u, ⟨rest, rfl⟩, ⟨-, rfl⟩ | ⟨-, i, -, hexec⟩ | ⟨act, hact⟩⟩ := step_next_cases h
  · exact ⟨rfl, fun _ => rfl⟩
  · have frame := exec_sameFrame hexec
    exact ⟨frame.platform, fun a => frame.findThread_map fun _ => frame.windows⟩
  · exact ⟨(hostAct_platform hact :), (hostAct_windows hact hn :)⟩

/-- Settles O51: no check and no result of an instruction reads a general register but a store's base, and none is written. -/
theorem generalRegistersOnlyAsBase : Obligations.GeneralRegistersOnlyAsBase := by
  intro s g rex d y b disp
  refine ⟨?_, ?_, fun i t => exec_keeps_g⟩
  · rintro i (rfl | rfl | rfl)
    · exact State.bitField_withG s g ..
    · exact State.bitField_withG s g ..
    · exact State.complete_withG s (fenceState s) g _
  · rintro i (rfl | rfl) hb
    · exact State.streamStore_withG hb ..
    · exact State.streamStore_withG hb ..

/-- Settles O42: the turn is one write of the register, which sets both lanes and leaves the other registers. -/
theorem hostWriteSetsBothMarks : Obligations.HostWriteSetsBothMarks := by
  intro s i v rest hr ha
  refine ⟨_, step_host hr ha, ?_, ?_, fun r hri => ?_⟩
  · rw [State.lane, State.setX_get, if_pos rfl]; rfl
  · rw [State.lane, State.setX_get, if_pos rfl]; rfl
  · rw [State.setX_get, if_neg hri]

/-- Settles O47: there is one thread, with no entry and every register zero, and memory, its fetch view and the record are empty. -/
theorem resetIsLegal : Obligations.ResetIsLegal := by
  unfold Obligations.ResetIsLegal
  decide

end Sys2Proof.Proofs
end

section
/-! PROOFS. The decoder on more bytes: a verdict stays when bytes follow (30_encoding.md R86), so too few bytes of an encoding have
none. -/

namespace Sys2Proof

/-- A verdict other than `truncated` does not change with the bytes that follow (R86). -/
def VerdictStable (f : List Byte → Decoded) : Prop :=
  ∀ bs tail, f bs ≠ .refused .truncated → f (bs ++ tail) = f bs

theorem VerdictStable.const (d : Decoded) : VerdictStable fun _ => d := fun _ _ _ => rfl

theorem VerdictStable.ite {f g : List Byte → Decoded} {c : Prop} [Decidable c] (hf : VerdictStable f) (hg : VerdictStable g) :
    VerdictStable fun bs => if c then f bs else g bs := by
  by_cases hc : c
  · simpa only [if_pos hc] using hf
  · simpa only [if_neg hc] using hg

/-- A stage that reads one byte is stable where what it does behind that byte is. -/
theorem VerdictStable.of_cons {f : List Byte → Decoded} (hnil : f [] = .refused .truncated)
    (hcons : ∀ b, VerdictStable fun rest => f (b :: rest)) : VerdictStable f := by
  intro bs tail h
  cases bs with
  | nil => exact absurd hnil h
  | cons b rest => exact hcons b rest tail h

theorem decodeRR_stable (op : Op) (mk : Bool → XReg → XReg → Instr) (rex : Option RexBits) :
    VerdictStable (decodeRR op mk rex) :=
  .of_cons rfl fun _ => .const _

/-- A displacement that is there does not change with the bytes that follow it (R77). -/
theorem decodeDisp_append {mod : BitVec 2} {rest : List Byte} {disp : Disp} (h : decodeDisp mod rest = some disp)
    (tail : List Byte) : decodeDisp mod (rest ++ tail) = some disp := by
  unfold decodeDisp at h ⊢
  split_ifs at h ⊢
  · exact h
  · match rest, h with
    | _ :: _, h => exact h
  · match rest, h with
    | _ :: _ :: _ :: _ :: _, h => exact h

theorem decodeM_stable (op : Op) (mk : Bool → GReg → Disp → XReg → Instr) (rex : Option RexBits) :
    VerdictStable (decodeM op mk rex) := by
  refine .of_cons rfl fun modrm => .ite (.const _) (.ite (.const _) (.ite (.const _) fun rest tail h => ?_))
  cases hd : decodeDisp (modField modrm) rest with
  | none => simp [hd] at h
  | some disp => simp only [decodeDisp_append hd]

theorem decodeOpcode_stable (p : Prefix) (rex : Option RexBits) : VerdictStable (decodeOpcode p rex) := by
  refine .of_cons rfl fun op => .ite ?_ (.ite ?_ (.ite ?_ (.const _)))
  · cases p
    · exact decodeRR_stable _ _ _
    · exact decodeRR_stable _ _ _
    · exact .const _
  · cases p
    · exact .const _
    · exact decodeM_stable _ _ _
    · exact decodeM_stable _ _ _
  · cases p
    · exact .of_cons rfl fun _ => .const _
    · exact .const _
    · exact .const _

theorem decodeRex_stable (m : Mode) (p : Prefix) (b : Byte) : VerdictStable (decodeRex m p b) :=
  .ite (.const _) (.ite (.const _) (.of_cons rfl fun _ => .ite (decodeOpcode_stable _ _) (.const _)))

theorem decodeAfterPrefix_stable (m : Mode) (p : Prefix) : VerdictStable (decodeAfterPrefix m p) :=
  .of_cons rfl fun _ => .ite (decodeOpcode_stable _ _) (.ite (decodeRex_stable _ _ _) (.const _))

theorem decodeFence_stable : VerdictStable decodeFence :=
  .of_cons rfl fun _ => .ite (.of_cons rfl fun _ => .const _) (.const _)

/-- The decoder is stable (R86). -/
theorem decode_stable (m : Mode) : VerdictStable (decode m) := by
  refine .of_cons rfl fun b => .ite decodeFence_stable ?_
  cases prefixOf b with
  | some p => exact decodeAfterPrefix_stable m p
  | none => exact .ite (.const _) (.const _)

/-- The first bytes of an instruction, short of all of them, give no verdict: it would be the instruction, whose bytes are more. -/
theorem decode_take_encode {m : Mode} {i : Instr} (h : i.wellFormed m = true) {k : Nat} (hk : k < (encode i).length) :
    decode m ((encode i).take k) = .refused .truncated := by
  by_contra hv
  have hi : decode m ((encode i).take k) = .ok i := by
    rw [← decode_stable m _ ((encode i).drop k) hv, List.take_append_drop]
    simpa using decode_encode h []
  obtain ⟨-, tail, htail⟩ := decode_ok hi
  have hlen := congrArg List.length htail
  rw [List.length_take, List.length_append] at hlen
  omega

end Sys2Proof
end

section
/-! PROOFS. Pending bytes: who holds one, what an access or a fetch that meets one answers, and the stores' entries
(20_memory.md R50, R57, R165). -/

namespace Sys2Proof.Machine

open Sys2Proof.Claims

/-! ### The bytes of an access -/

/-- The bytes from the `j`-th on of an access are bytes of the access. -/
theorem byteAddrs_add_subset (md : Mode) (a : Addr) (j n : Nat) :
    byteAddrs md (a + BitVec.ofNat 64 j) n ⊆ byteAddrs md a (j + n) := by
  intro x hx
  obtain ⟨k, hk, rfl⟩ := mem_byteAddrs.1 hx
  exact mem_byteAddrs.2 ⟨j + k, by omega, by rw [BitVec.ofNat_add, BitVec.add_assoc]⟩

/-- Reading from byte `j` of a store on gives its bytes from the `j`-th on (R41). -/
theorem Memory.readAll_writeBytes_drop (md : Mode) (m : Memory) (a : Addr) {bs : List Byte} (hn : bs.length ≤ 2 ^ 32) (j : Nat) :
    (m.writeBytes md a bs).readAll (byteAddrs md (a + BitVec.ofNat 64 j) (bs.length - j)) = bs.drop j := by
  refine List.ext_getElem? fun k => ?_
  rw [List.getElem?_drop]
  by_cases hk : k < bs.length - j
  · rw [Memory.readAll_byteAddrs_getElem? _ _ _ hk, BitVec.add_assoc, ← BitVec.ofNat_add]
    exact Memory.read_writeBytes_same md m a hn (by omega)
  · rw [List.getElem?_eq_none (by rw [Memory.readAll_length, byteAddrs_length]; omega), List.getElem?_eq_none (by omega)]

/-! ### Accesses that meet a pending byte -/

/-- An access that meets a pending byte raises `UnfencedAccess`, and every access to the same bytes names the same thread that
holds one of them (R50, R165). -/
theorem exists_owner_of_meetsPending {s : State} {addr : Addr} {n : Nat} (h : meetsPending s addr n) :
    ∃ owner, holdsByteOf s owner addr n ∧
      ∀ access, s.unfenced access addr n = some (.unfencedAccess s.cur.id s.cur.pc access addr n owner) := by
  obtain ⟨owner, ho, -⟩ := State.unfenced_eq_some (access := .hostRead) h
  exact ⟨owner, State.ownerOf_eq_some ho, fun access => by rw [State.unfenced, ho]; rfl⟩

/-- An access with no other check faults where its bytes are found pending (R50). -/
theorem State.complete_unfenced {s t : State} {access : Access} {addr : Addr} {n : Nat} {f : Fault}
    (h : s.unfenced access addr n = some f) : s.complete [s.unfenced access addr n] t = .fault f := by
  rw [h, State.complete_some]

/-! ### The fetch -/

/-- The fetch ends at a pending byte with the bytes that stand before it (R50, R57). -/
theorem fetchBytes_pending {s : State} {bs : List Byte} {k fuel : Nat} {f : Fault} (hk : k < fuel) (hl : k ≤ bs.length)
    (h : standAtPc s bs k) (hf : s.unfenced .fetch (pcByte s k) 1 = some f) :
    s.fetchBytes fuel (wrap s.mode s.cur.pc) = (bs.take k, some f) := by
  obtain ⟨m, hm⟩ : ∃ m, fuel - k = m + 1 := ⟨fuel - k - 1, by omega⟩
  rw [State.fetchBytes_stand (wrap_wrap ..) hk.le hl fun j hj => by rw [wrap_add_left]; exact h j hj, wrap_add_left, hm]
  simp [State.fetchBytes, hf]

/-- The fetch of an instruction with a pending byte stops with that byte's fault: the bytes before it give no verdict. -/
theorem fetch_pending {s : State} {i : Instr} {k : Nat} {f : Fault} (hwf : i.wellFormed s.mode = true) (hk : k < i.length)
    (h : standAtPc s (encode i) k) (hf : s.unfenced .fetch (pcByte s k) 1 = some f) : s.fetch = .stop (.fault f) := by
  obtain ⟨hlen, -, hmax⟩ := encoding_length i
  have hbytes := fetchBytes_pending (fuel := maxLength) (by omega) (by omega) h hf
  simp only [State.fetch, hbytes, decode_take_encode hwf (hlen ▸ hk)]
  rfl

/-! ### Streaming stores -/

/-- Both streaming stores complete under the same conditions and leave a state of one shape (R132). -/
theorem exec_isStore_eq_next {s t : State} {i : Instr} {n : Nat} {rex : Bool} {b : GReg} {disp : Disp} {y : XReg}
    (hi : isStore i n rex b disp y) :
    exec i s = .next t ↔
      (s.platform.capSse4a = true ∧ (s.lane y .lane0).written = true ∧
        s.cur.validWrite (s.effectiveAddress b disp) n = true ∧
        ((s.effectiveAddress b disp).toNat % n = 0 ∨ s.platform.misalignedNt = .perform) ∧
        ∀ a ∈ byteAddrs s.mode (s.effectiveAddress b disp) n, a ∉ s.allPending) ∧
      storeState s i n b disp y = t := by
  obtain ⟨rfl, rfl⟩ | ⟨rfl, rfl⟩ := hi
  · exact exec_movntsd_eq_next
  · exact exec_movntss_eq_next

/-- A streaming store's own bytes are pending after it (R28, R132). -/
theorem mem_allPending_storeState {s : State} {i : Instr} {n : Nat} {b : GReg} {disp : Disp} {y : XReg} {a : Addr}
    (ha : a ∈ byteAddrs s.mode (s.effectiveAddress b disp) n) : a ∈ (storeState s i n b disp y).allPending := by
  have hentry : storeEntry (s.effectiveAddress b disp) n (s.lane y .lane0).val ∈ (storeState s i n b disp y).cur.nt :=
    List.mem_append_right _ (List.mem_singleton_self _)
  exact State.mem_allPending.2 ⟨_, List.mem_cons_self, List.mem_flatMap.2 ⟨_, hentry, ha⟩⟩

/-! ### The fence -/

/-- What is pending after the fence is what the other threads hold (R54). -/
theorem allPending_fenceState (s : State) :
    (fenceState s).allPending = s.others.flatMap fun t => t.pendingBytes s.mode := rfl

/-- A store and the fence after it leave pending only what was pending before both. -/
theorem mem_allPending_of_storeFence {s : State} {i : Instr} {n : Nat} {b : GReg} {disp : Disp} {y : XReg} {a : Addr}
    (h : a ∈ (fenceState (storeState s i n b disp y)).allPending) : a ∈ s.allPending := by
  rw [State.allPending_eq]
  exact List.mem_append_right _ h

/-- After the fence the thread's own loads see memory as it is (R152). -/
theorem loadView_fenceState (s : State) : (fenceState s).loadView = (fenceState s).mem := rfl

/-- A store and the fence after it commit the buffered stores, the earlier entries and then the store's own (R151). -/
theorem storeFence_mem (s : State) (i : Instr) (n : Nat) (b : GReg) (disp : Disp) (y : XReg) :
    (fenceState (storeState s i n b disp y)).mem =
      commitEntries s.mode (drainStores s.mode s.mem s.cur.storeBuf)
        (s.cur.nt ++ [storeEntry (s.effectiveAddress b disp) n (s.lane y .lane0).val]) := rfl

/-- The last entry committed is written over all that came before it. -/
theorem commitEntries_concat (md : Mode) (m : Memory) (es : List NTEntry) (e : NTEntry) :
    commitEntries md m (es ++ [e]) = (commitEntries md m es).writeBytes md e.addr e.bytes := by
  rw [commitEntries_append]; rfl

/-- After a store of `n` bytes and the fence, memory holds the low bytes of the lane, here read from the `j`-th on (R41, R151). -/
theorem storeFence_readAll (s : State) (i : Instr) {n : Nat} (b : GReg) (disp : Disp) (y : XReg) (hn : n ≤ 2 ^ 32) (j : Nat) :
    (fenceState (storeState s i n b disp y)).mem.readAll
        (byteAddrs s.mode (s.effectiveAddress b disp + BitVec.ofNat 64 j) (n - j)) =
      (littleEndian n (s.lane y .lane0).val).drop j := by
  have hread := Memory.readAll_writeBytes_drop s.mode (commitEntries s.mode (drainStores s.mode s.mem s.cur.storeBuf) s.cur.nt)
    (s.effectiveAddress b disp) (bs := littleEndian n (s.lane y .lane0).val) (by rwa [littleEndian_length]) j
  rw [littleEndian_length] at hread
  rw [storeFence_mem, commitEntries_concat]
  exact hread

/-! ### Ordinary loads and stores -/

/-- A load that meets no pending byte completes with the bytes that its thread sees (R50). -/
theorem hostLoad_of_clear {s : State} {addr : Addr} {n : Nat} (h : ∀ a ∈ byteAddrs s.mode addr n, a ∉ s.allPending) :
    hostLoad addr n s = .next (s.record (.load s.cur.id addr (s.loadView.readAll (byteAddrs s.mode addr n)))) := by
  rw [hostLoad, State.unfenced_eq_none.2 h, State.complete_none, State.complete_nil]

/-- Where an ordinary store that completes is written: in memory, or in what its own thread's loads see (R53, R152). -/
theorem hostStore_next_cases {s t : State} {addr : Addr} {bytes : List Byte} (h : hostStore addr bytes s = .next t) :
    s.platform.ordinaryMM = .sequential ∧ t.mem = s.mem.writeBytes s.mode addr bytes ∨
      s.platform.ordinaryMM = .storeBuffered ∧ t.mem = s.mem ∧ t.loadView = s.loadView.writeBytes s.mode addr bytes := by
  obtain ⟨-, rfl⟩ := State.complete_eq_next.1 h
  cases s.platform.ordinaryMM with
  | sequential => exact .inl ⟨rfl, rfl⟩
  | storeBuffered => exact .inr ⟨rfl, rfl, drainStores_append ..⟩

end Sys2Proof.Machine
end

section
/-! PROOFS. The obligations of the family 20_memory.md. -/

namespace Sys2Proof.Proofs

open Sys2Proof.Machine Sys2Proof.Claims

/-- Settles O31: the shared byte is pending after the first store, and the second completes only clear of pending bytes. -/
theorem overlappingStoreNeedsAFence : Obligations.OverlappingStoreNeedsAFence := by
  rintro s t i j n m rex rex' b b' disp disp' y y' hi hj h ⟨a, haj, hai⟩ u hu
  obtain ⟨-, rfl⟩ := (exec_isStore_eq_next hi).1 h
  obtain ⟨⟨-, -, -, -, hclear⟩, -⟩ := (exec_isStore_eq_next hj).1 hu
  exact hclear a haj (mem_allPending_storeState hai)

/-- Settles O32: the state that both stores leave differs in one entry, one event and the pc. -/
theorem streamingStoreFrame : Obligations.StreamingStoreFrame := by
  intro s t i n rex b disp y hi h
  obtain ⟨-, rfl⟩ := (exec_isStore_eq_next hi).1 h
  exact ⟨fun _ => rfl, rfl, rfl, rfl, rfl, rfl, rfl, rfl, rfl, rfl, rfl, rfl, rfl, rfl⟩

/-- Settles O35: the fence touches no other thread, so what one of them holds is still pending and the load meets it. -/
theorem fenceLeavesOtherThreadsPending : Obligations.FenceLeavesOtherThreadsPending := by
  intro s t h
  obtain ⟨-, rfl⟩ := exec_sfence_eq_next.1 h
  refine ⟨rfl, fun u hu a hpending addr n ha => ?_⟩
  have hmeets : meetsPending (fenceState s) addr n :=
    ⟨a, ha, by rw [allPending_fenceState]; exact List.mem_flatMap.2 ⟨u, hu, hpending⟩⟩
  obtain ⟨owner, hholds, hfault⟩ := exists_owner_of_meetsPending hmeets
  exact ⟨owner, hholds, State.complete_unfenced (hfault _)⟩

/-- Settles O38: the store's entry is the last that the fence commits, so its bytes stand in memory, and none of them is pending. -/
theorem storeFenceLoadHighHalf : Obligations.StoreFenceLoadHighHalf := by
  constructor
  · rintro s t u rex b disp y v ea rfl rfl hstore hfence
    obtain ⟨⟨-, -, -, -, hclear⟩, rfl⟩ := exec_movntsd_eq_next.1 hstore
    obtain ⟨-, rfl⟩ := exec_sfence_eq_next.1 hfence
    refine ⟨_, hostLoad_of_clear fun a ha hp => ?_, ?_⟩
    · exact hclear a (byteAddrs_add_subset _ _ 4 4 ha) (mem_allPending_of_storeFence hp)
    · rw [State.record_events, loadView_fenceState]
      exact congrArg (fun bs => _ ++ [Event.load _ _ bs]) (storeFence_readAll s _ (n := 8) b disp y (by omega) 4)
  · rintro s t u rex b disp y ea rfl hstore hfence
    obtain ⟨-, rfl⟩ := exec_movntss_eq_next.1 hstore
    obtain ⟨-, rfl⟩ := exec_sfence_eq_next.1 hfence
    rw [storeFence_mem]
    constructor
    · intro k hk
      rw [commitEntries_concat]
      exact Memory.read_writeBytes_littleEndian _ _ _ _ (by omega) hk
    · intro x hown hentries hbuffered
      rw [commitEntries_read_other _ _ (List.forall_mem_append.2 ⟨hentries, List.forall_mem_singleton.2 hown⟩),
        drainStores_read_other _ _ hbuffered]

/-- Settles O39: each access has the one check of R50, and the fetch meets the pending byte before it has a verdict. -/
theorem unfencedAccessFaults : Obligations.UnfencedAccessFaults := by
  constructor
  · rintro s addr n bytes rest hr hmeets rfl
    obtain ⟨owner, hholds, hfault⟩ := exists_owner_of_meetsPending (s := { s with agenda := rest }) hmeets
    refine ⟨owner, hholds, fun ha => ?_, fun ha => ?_, fun ha => ?_⟩
    all_goals exact (step_host hr ha).trans (State.complete_unfenced (hfault _))
  · rintro s i k ⟨hr, he, ha⟩ hwf hk hstand hpending
    have hmeets : meetsPending s (pcByte s k) 1 :=
      ⟨_, by rw [byteAddrs_one, wrap_wrap]; exact List.mem_singleton_self _, hpending⟩
    obtain ⟨owner, hholds, hfault⟩ := exists_owner_of_meetsPending hmeets
    refine ⟨owner, hholds, ?_⟩
    rw [step_nil hr ha, issue, he, fetch_pending hwf hk hstand (hfault _)]
    rfl

/-- Settles O41: the turn has one check, that the thread's own entries are none. -/
theorem endNeedsAnEmptyBuffer : Obligations.EndNeedsAnEmptyBuffer := by
  constructor
  · intro s rest hr ha
    rw [step_host hr ha, hostAct, hostEndRun]
    exact ⟨fun hnt => by rw [if_neg hnt, State.complete_some],
      fun hnt => by rw [if_pos hnt, State.complete_none, State.complete_nil]⟩
  · rintro s ⟨hnt, hfaults, -⟩
    exact ⟨hnt, hfaults⟩

/-- Settles O44: the bytes are written in memory or over it in the thread's own view, and reading them back gives them. -/
theorem ordinaryStoreVisibility : Obligations.OrdinaryStoreVisibility := by
  intro s t addr bytes hlen h
  obtain ⟨hmm, hmem⟩ | ⟨hmm, hmem, hview⟩ := hostStore_next_cases h
  · refine ⟨fun _ k hk => ?_, fun h => by simp [hmm] at h⟩
    rw [hmem]
    exact Memory.read_writeBytes_same _ _ _ hlen hk
  · refine ⟨fun h => by simp [hmm] at h, fun _ => ⟨hmem, fun k hk => ?_⟩⟩
    rw [hview]
    exact Memory.read_writeBytes_same _ _ _ hlen hk

/-- Settles O45: no instruction writes the thread's own view or the parameter, and the host's turn copies from memory. -/
theorem fetchSeesCommitsByItsParameter : Obligations.FetchSeesCommitsByItsParameter := by
  constructor
  · intro i s t h
    have hplatform := (exec_sameFrame h).platform
    constructor
    · intro hdeferred
      simp only [State.fetchView, hplatform, hdeferred, exec_keeps_imem h]
    · intro hcoherent
      simp only [State.fetchView, hplatform, hcoherent]
  · intro s addr n hdeferred
    refine ⟨_, rfl, fun a ha => ?_⟩
    simp only [State.fetchView, hdeferred]
    rw [copyBytes_read, if_pos (List.mem_map_of_mem ha)]

end Sys2Proof.Proofs
end

section
/-! PROOFS. How many bytes each stage of the decoder needs for a verdict (30_encoding.md R84, R86). -/

namespace Sys2Proof

/-- `n` bytes are enough for a verdict other than `truncated` (R86). -/
def VerdictWithin (n : Nat) (f : List Byte → Decoded) : Prop :=
  ∀ bs, n ≤ bs.length → f bs ≠ .refused .truncated

theorem VerdictWithin.const {n : Nat} {d : Decoded} (h : d ≠ .refused .truncated := by nofun) : VerdictWithin n fun _ => d :=
  fun _ _ => h

theorem VerdictWithin.ite {n : Nat} {f g : List Byte → Decoded} {c : Prop} [Decidable c] (hf : VerdictWithin n f)
    (hg : VerdictWithin n g) : VerdictWithin n fun bs => if c then f bs else g bs := by
  by_cases hc : c
  · simpa only [if_pos hc] using hf
  · simpa only [if_neg hc] using hg

/-- A stage that reads one byte needs one byte more than what it does behind that byte. -/
theorem VerdictWithin.of_cons {n : Nat} {f : List Byte → Decoded} (hcons : ∀ b, VerdictWithin n fun rest => f (b :: rest)) :
    VerdictWithin (n + 1) f := by
  intro bs hn
  cases bs with
  | nil => simp at hn
  | cons b rest => exact hcons b rest (Nat.le_of_succ_le_succ hn)

theorem rejectByte_ne_truncated (b : Byte) : Decoded.refused (rejectByte b) ≠ .refused .truncated := by
  unfold rejectByte
  split_ifs <;> simp

theorem decodeRR_within (op : Op) {mk : Bool → XReg → XReg → Instr} (rex : Option RexBits) (n : Nat) :
    VerdictWithin (n + 1) (decodeRR op mk rex) :=
  .of_cons fun _ => .ite .const .const

/-- Four bytes hold every displacement (R77, R86). -/
theorem decodeDisp_ne_none {rest : List Byte} (h : 4 ≤ rest.length) (mod : BitVec 2) : decodeDisp mod rest ≠ none := by
  match rest, h with
  | _ :: _ :: _ :: _ :: _, _ =>
    unfold decodeDisp
    split_ifs <;> nofun

theorem decodeM_within (op : Op) (mk : Bool → GReg → Disp → XReg → Instr) (rex : Option RexBits) :
    VerdictWithin 5 (decodeM op mk rex) := by
  refine .of_cons fun modrm => .ite .const (.ite .const (.ite .const fun rest hn => ?_))
  cases hd : decodeDisp (modField modrm) rest with
  | none => exact absurd hd (decodeDisp_ne_none hn _)
  | some disp => nofun

theorem decodeImm66_within (n : Nat) : VerdictWithin (n + 1) decodeImm66 := by
  refine .of_cons fun modrm => .const ?_
  split_ifs <;> nofun

theorem decodeOpcode_within (p : Prefix) (rex : Option RexBits) : VerdictWithin 6 (decodeOpcode p rex) := by
  refine .of_cons fun op => .ite ?_ (.ite ?_ (.ite ?_ .const))
  · cases p
    · exact decodeRR_within _ _ 4
    · exact decodeRR_within _ _ 4
    · exact .const
  · cases p
    · exact .const
    · exact decodeM_within _ _ _
    · exact decodeM_within _ _ _
  · cases p
    · exact decodeImm66_within 4
    · exact .const
    · exact .const

theorem decodeRex_within (m : Mode) (p : Prefix) (b : Byte) : VerdictWithin 7 (decodeRex m p b) :=
  .ite .const (.ite .const (.of_cons fun _ => .ite (decodeOpcode_within _ _) .const))

theorem decodeAfterPrefix_within (m : Mode) (p : Prefix) : VerdictWithin 8 (decodeAfterPrefix m p) :=
  .of_cons fun b => .ite (fun bs hn => decodeOpcode_within p none bs (by omega))
    (.ite (decodeRex_within m p b) (.const (rejectByte_ne_truncated b)))

theorem decodeFence_within (n : Nat) : VerdictWithin (n + 2) decodeFence := by
  refine .of_cons fun _ => .ite (.of_cons fun modrm => .ite .const (.const ?_)) .const
  split_ifs <;> nofun

/-- The decoder needs at most as many bytes as the longest instruction has (R84, R86). -/
theorem decode_within (m : Mode) : VerdictWithin maxLength (decode m) := by
  refine .of_cons fun b => .ite (decodeFence_within 6) ?_
  cases prefixOf b with
  | some p => exact decodeAfterPrefix_within m p
  | none =>
    refine .ite (.const ?_) (.const (rejectByte_ne_truncated b))
    split_ifs <;> nofun

end Sys2Proof
end

section
/-! PROOFS. What the decoder refuses by name, byte by byte from the left (30_encoding.md R84, log 18). -/

namespace Sys2Proof

open Sys2Proof.Claims

/-! ### The bytes -/

theorem Prefix.byte_inj : ∀ {p q : Prefix}, p.byte = q.byte → p = q
  | .p66, .p66, _ | .pF2, .pF2, _ | .pF3, .pF3, _ => rfl

theorem exists_prefix_of_mandatory {p : Byte} (hp : p ∈ mandatoryPrefixes) : ∃ q : Prefix, p = q.byte := by
  simp only [List.mem_cons, List.not_mem_nil, or_false] at hp
  rcases hp with rfl | rfl | rfl
  · exact ⟨.p66, rfl⟩
  · exact ⟨.pF2, rfl⟩
  · exact ⟨.pF3, rfl⟩

/-- The admitted REX bytes carry the bits `R` and `B` alone, and stand only in `Long64` (R78). -/
theorem exists_rex_of_choice {m : Mode} {rx : List Byte} (h : rx ∈ rexChoices m) :
    ∃ rex, (rex.isSome = true → m = .long64) ∧ rx = optRexBytes rex := by
  cases m with
  | long64 =>
    simp only [rexChoices, if_true, List.mem_cons, List.not_mem_nil, or_false] at h
    rcases h with rfl | rfl | rfl | rfl | rfl
    · exact ⟨none, fun _ => rfl, rfl⟩
    · exact ⟨some { r := false, b := false }, fun _ => rfl, rfl⟩
    · exact ⟨some { r := false, b := true }, fun _ => rfl, rfl⟩
    · exact ⟨some { r := true, b := false }, fun _ => rfl, rfl⟩
    · exact ⟨some { r := true, b := true }, fun _ => rfl, rfl⟩
  | legacy32 => exact ⟨none, nofun, List.mem_singleton.1 h⟩

theorem prefixOf_eq_none : ∀ {b : Byte}, b ∉ mandatoryPrefixes → prefixOf b = none := by decide

theorem isRex_other : ∀ {b : Byte}, isRex b = true → b ≠ 0x0F ∧ b ∉ mandatoryPrefixes := by decide

theorem refused_not_mandatory : ∀ {b : Byte}, b ∈ refusedPrefixes ++ vexBytes → b ∉ mandatoryPrefixes := by decide

theorem rejectByte_of_prefix : ∀ {b : Byte}, b ∈ mandatoryPrefixes ++ refusedPrefixes →
    b ≠ 0x0F ∧ isRex b = false ∧ rejectByte b = .otherPrefix := by decide

theorem rejectByte_of_vex : ∀ {b : Byte}, b ∈ vexBytes →
    b ≠ 0x0F ∧ isRex b = false ∧ rejectByte b = .vexEvex := by decide

theorem rejectByte_of_plain : ∀ {b : Byte}, isPlain b → rejectByte b = .otherOpcode := by decide

/-! ### The first two bytes -/

/-- A REX byte that comes first is refused (R78, R84). -/
theorem decode_isRex {b : Byte} (h : isRex b = true) (m : Mode) (tail : List Byte) :
    decode m (b :: tail) = .refused (if m = .legacy32 then .rexInLegacy32 else .rexMisplaced) := by
  obtain ⟨h0F, hp⟩ := isRex_other h
  simp only [decode, if_neg h0F, prefixOf_eq_none hp, h, if_true]

/-- A first byte that is no mandatory byte, no REX and not `0F` is refused by its own name (R84). -/
theorem decode_rejectByte {b : Byte} (h0F : b ≠ 0x0F) (hrex : isRex b = false) (hp : b ∉ mandatoryPrefixes) (m : Mode)
    (tail : List Byte) : decode m (b :: tail) = .refused (rejectByte b) := by
  simp only [decode, if_neg h0F, prefixOf_eq_none hp, hrex, Bool.false_eq_true, if_false]

theorem decode_prefix_byte (m : Mode) (q : Prefix) (rest : List Byte) :
    decode m (q.byte :: rest) = decodeAfterPrefix m q rest := by
  cases q <;> rfl

theorem decode_prefix_isRex {b : Byte} (h : isRex b = true) (m : Mode) (q : Prefix) (tail : List Byte) :
    decode m (q.byte :: b :: tail) = decodeRex m q b tail := by
  rw [decode_prefix_byte]
  simp only [decodeAfterPrefix, if_neg (isRex_other h).1, h, if_true]

/-- A REX byte with `W` or `X` set is refused (R78, R84). -/
theorem decodeRex_wx {b : Byte} (h : (b.getLsbD 3 || b.getLsbD 1) = true) (q : Prefix) (rest : List Byte) :
    decodeRex .long64 q b rest = .refused .rexWX := by
  simp only [decodeRex, reduceCtorEq, if_false, if_pos h]

/-- An admitted REX byte that is not directly before `0F` is refused (R78, R84). -/
theorem decodeRex_misplaced {b c : Byte} (h : (b.getLsbD 3 || b.getLsbD 1) = false) (hc : c ≠ 0x0F) (q : Prefix)
    (rest : List Byte) : decodeRex .long64 q b (c :: rest) = .refused .rexMisplaced := by
  simp only [decodeRex, reduceCtorEq, if_false, h, Bool.false_eq_true, if_neg hc]

/-- Behind a mandatory byte, a byte that is no REX and not `0F` is refused by its own name (R84). -/
theorem decode_prefix_rejectByte {b : Byte} (h0F : b ≠ 0x0F) (hrex : isRex b = false) (m : Mode) (q : Prefix)
    (tail : List Byte) : decode m (q.byte :: b :: tail) = .refused (rejectByte b) := by
  rw [decode_prefix_byte]
  simp only [decodeAfterPrefix, if_neg h0F, hrex, Bool.false_eq_true, if_false]

/-! ### The opcode map and format M -/

theorem decodeM_sib {modrm : Byte} (hmod : modField modrm ≠ 3) (hrm : rmField modrm = 4) (op : Op)
    (mk : Bool → GReg → Disp → XReg → Instr) (rex : Option RexBits) (tail : List Byte) :
    decodeM op mk rex (modrm :: tail) = .refused .sib := by
  simp only [decodeM, if_neg hmod, if_pos hrm]

theorem decodeM_ripRelative {modrm : Byte} (hmod : modField modrm = 0) (hrm : rmField modrm = 5) (op : Op)
    (mk : Bool → GReg → Disp → XReg → Instr) (rex : Option RexBits) (tail : List Byte) :
    decodeM op mk rex (modrm :: tail) = .refused .ripRelative := by
  simp [decodeM, hmod, hrm]

/-- Opcode `2B` is a streaming store behind `F2` and `F3` (R82). -/
theorem decodeOpcode_store {q : Prefix} (hq : q ≠ .p66) (rex : Option RexBits) :
    ∃ op mk, ∀ rest, decodeOpcode q rex (0x2B :: rest) = decodeM op mk rex rest := by
  cases q with
  | p66 => exact absurd rfl hq
  | pF2 => exact ⟨_, _, fun _ => rfl⟩
  | pF3 => exact ⟨_, _, fun _ => rfl⟩

theorem decodeOpcode_other {b : Byte} (h79 : b ≠ 0x79) (h2B : b ≠ 0x2B) (h78 : b ≠ 0x78) (q : Prefix) (rex : Option RexBits)
    (rest : List Byte) : decodeOpcode q rex (b :: rest) = .refused .otherOpcode := by
  simp only [decodeOpcode, if_neg h79, if_neg h2B, if_neg h78]

/-! ### The fence's opcode -/

theorem decode_fence_modrm (m : Mode) {modrm : Byte} (h : modrm ≠ 0xF8) (tail : List Byte) :
    decode m (0x0F :: 0xAE :: modrm :: tail) = .refused (if 0xF9 ≤ modrm then .fenceModrm else .otherOpcode) := by
  simp only [decode, decodeFence, decodeFenceModrm, if_true, if_neg h]

theorem decode_fence_opcode (m : Mode) {b : Byte} (h : b ≠ 0xAE) (tail : List Byte) :
    decode m (0x0F :: b :: tail) = .refused .otherOpcode := by
  simp only [decode, decodeFence, if_true, if_neg h]

end Sys2Proof
end

section
/-! PROOFS. The descriptor's fields, what bits outside them change, and the effective address as a number (30_encoding.md R70 to
R74, R80, R85). -/

namespace Sys2Proof.Machine

open Sys2Proof.Claims

/-! ### The descriptor -/

/-- The two raw fields decide everything `Desc` gives (R71). -/
theorem decodeDesc_congr {c c' : Word} (hlen : rawLen c = rawLen c') (hidx : rawIdx c = rawIdx c') :
    decodeDesc c = decodeDesc c' := by
  unfold rawLen at hlen
  unfold rawIdx at hidx
  rw [decodeDesc_eq, decodeDesc_eq, hlen, hidx]

/-- What `Desc` gives on a word with raw index `i`, raw length `l` and no other bits (R70, R71). -/
theorem decodeDesc_ofNat {i l : Nat} (hi : i < 64) (hl : l < 64) :
    decodeDesc (BitVec.ofNat 64 (256 * i + l)) =
      { len := if l = 0 then 64 else l, idx := i, valid := decide (i + (if l = 0 then 64 else l) ≤ 64) } := by
  have hlen : ((BitVec.ofNat 64 (256 * i + l)).extractLsb' 0 6).toNat = l := by
    simp only [BitVec.extractLsb'_toNat, BitVec.toNat_ofNat]
    omega
  have hidx : ((BitVec.ofNat 64 (256 * i + l)).extractLsb' 8 6).toNat = i := by
    simp only [BitVec.extractLsb'_toNat, BitVec.toNat_ofNat]
    omega
  rw [decodeDesc_eq, hlen, hidx]

/-- `Enc` puts the index in byte 1 and the length modulo 64 in byte 0 (R74). -/
theorem encodeDesc_eq (idx len : Nat) : encodeDesc idx len = BitVec.ofNat 64 (256 * idx + len % 64) := by
  rw [encodeDesc, ← Nat.shiftLeft_add_eq_or_of_lt (show len % 64 < 2 ^ 8 by omega), Nat.shiftLeft_eq, Nat.mul_comm]

theorem countP_lt_range (k n : Nat) : (List.range n).countP (fun i => decide (i < k)) = min k n := by
  induction n with
  | zero => simp
  | succ n ih =>
    rw [List.range_succ, List.countP_append, ih, List.countP_singleton]
    grind

/-- How many indices are valid with a raw length: `65 - l` of them, and index 0 alone with the raw length 0 (R72). -/
theorem countP_valid {l : Nat} (hl : l < 64) :
    ((List.range 64).map fun i => BitVec.ofNat 64 (256 * i + l)).countP (fun c => (decodeDesc c).valid) =
      if l = 0 then 1 else 65 - l := by
  have fits : ∀ i ∈ List.range 64, (decodeDesc (BitVec.ofNat 64 (256 * i + l))).valid =
      decide (i < if l = 0 then 1 else 65 - l) := by
    intro i hi
    rw [decodeDesc_ofNat (List.mem_range.1 hi) hl]
    refine decide_eq_decide.2 ?_
    split <;> omega
  rw [List.countP_map, List.countP_congr fun i hi => by rw [Function.comp_apply, fits i hi], countP_lt_range]
  split <;> omega

/-! ### Another descriptor word -/

/-- The raw fields alone enter what a bit-field instruction leaves. -/
theorem fieldState_congr (s : State) (i : Instr) (d : XReg) {c c' : Word} (h : decodeDesc c = decodeDesc c')
    (f : Nat → Nat → Word) : fieldState s i d c f = fieldState s i d c' f := by
  simp only [fieldState, laneDraws, laneValue, h]

/-- An operand register with another value in one lane. -/
def XEntry.withVal (e : XEntry) (v : Word) : LaneNo → XEntry
  | .lane0 => { e with lane0 := { e.lane0 with val := v } }
  | .lane1 => { e with lane1 := { e.lane1 with val := v } }

/-- The state with another value in one lane of a register of the issuing thread: `withLane0` and `withLane1` in one. -/
def State.withVal (s : State) (y : XReg) (v : Word) (l : LaneNo) : State :=
  { s with cur := { s.cur with x := s.cur.x.set y.val ((s.cur.x.get y).withVal v l) y.isLt } }

theorem withLane0_eq (s : State) (y : XReg) (v : Word) : withLane0 s y v = s.withVal y v .lane0 := rfl

theorem withLane1_eq (s : State) (y : XReg) (v : Word) : withLane1 s y v = s.withVal y v .lane1 := rfl

theorem State.withVal_lane (s : State) (y r : XReg) (v : Word) (l k : LaneNo) :
    (s.withVal y v l).lane r k = if r = y ∧ k = l then { (s.lane y l) with val := v } else s.lane r k := by
  simp only [State.lane, State.withVal, get_set_reg]
  by_cases hr : r = y
  · subst hr
    cases l <;> cases k <;> simp [XEntry.withVal, XEntry.lane]
  · simp [hr]

/-- What is written over both lanes does not keep a lane's old value (R26, R103). -/
theorem XEntry.withVal_wrote (e : XEntry) (v hi lo : Word) (l : LaneNo) : (e.withVal v l).wrote hi lo = e.wrote hi lo := by
  cases l <;> rfl

/-- A bit-field instruction writes over its destination and leaves another register as it is (R12). -/
theorem fieldState_withVal (s : State) (y : XReg) (v : Word) (l : LaneNo) (i : Instr) (d : XReg) (c : Word)
    (f : Nat → Nat → Word) :
    fieldState (s.withVal y v l) i d c f =
      if y = d then fieldState s i d c f else (fieldState s i d c f).withVal y v l := by
  simp only [fieldState, State.setX, Thread.setX, State.withVal, State.advance, get_set_reg]
  by_cases hy : y = d
  · subst hy
    simp only [if_true, XEntry.withVal_wrote, Vector.set_set]
    rfl
  · have hne : d.val ≠ y.val := fun he => hy (Fin.ext he.symm)
    simp only [if_neg hy, if_neg (Ne.symm hy), Vector.set_comm _ _ hne]
    rfl

/-! ### The effective address -/

/-- A sum of two words, modulo `2^ADDR_WIDTH`, is the sum of the first as a number and the second as a signed number (R10, R80). -/
theorem wrap_add_toInt (md : Mode) (a b : Addr) :
    ((wrap md (a + b)).toNat : Int) = (a.toNat + b.toInt) % 2 ^ addrWidth md := by
  have hb := BitVec.toInt_eq_toNat_cond b
  rw [wrap_toNat, BitVec.toNat_add]
  cases md <;> simp only [addrWidth] <;> split at hb <;> omega

theorem State.effectiveAddress_toNat (s : State) (b : GReg) (disp : Disp) :
    ((s.effectiveAddress b disp).toNat : Int) = ((s.cur.g.get b).toNat + (dispValue disp).toInt) % 2 ^ addrWidth s.mode :=
  wrap_add_toInt ..

end Sys2Proof.Machine
end

section
/-! PROOFS. The obligations of the family 30_encoding.md. -/

namespace Sys2Proof.Proofs

open Sys2Proof.Machine Sys2Proof.Claims

/-- Settles O1: each format reads back the REX, ModRM and displacement bytes that the encoder writes. -/
theorem decodeOfEncode : Obligations.DecodeOfEncode :=
  fun _ _ tail hwf => decode_encode hwf tail

/-- Settles O2: the encoding stands first in the bytes, and it has the instruction's length. -/
theorem decodeOnlyEncodings : Obligations.DecodeOnlyEncodings := by
  intro m bs i h
  obtain ⟨hwf, tail, rfl⟩ := decode_ok h
  exact ⟨hwf, List.take_left' (encoding_length i).1⟩

/-- Settles O3: every stage of the decoder keeps its verdict when bytes follow. -/
theorem decodeVerdictStable : Obligations.DecodeVerdictStable := decode_stable

/-- Settles O4: each stage has its verdict within its share of the nine bytes. -/
theorem nineBytesGiveAVerdict : Obligations.NineBytesGiveAVerdict := decode_within

/-- Settles O6: behind `0F` the opcode map refuses, behind a mandatory byte and at the start the byte itself. -/
theorem refusedEncodings : Obligations.RefusedEncodings := by
  intro tail b modrm m
  refine ⟨fun p hp rx hrx => ?_, fun p hp => ?_,
    fun hb => ⟨decode_isRex hb .long64 tail, decode_isRex hb .legacy32 tail⟩, fun hb => ?_, fun hb => ?_, fun hb => ?_,
    fun h => ?_, fun h => ?_, fun hb => decode_fence_opcode m hb tail⟩
  · -- behind a mandatory byte, an admitted REX and `0F`
    obtain ⟨q, rfl⟩ := exists_prefix_of_mandatory hp
    obtain ⟨rex, hrex, rfl⟩ := exists_rex_of_choice hrx
    simp only [decode_prefix hrex]
    refine ⟨fun h => ?_, fun h => ?_, fun h hmod hrm => ?_, fun h hmod hrm => ?_, fun h hb => ?_, fun h => ?_,
      fun h79 h2B h78 => decodeOpcode_other h79 h2B h78 q rex tail⟩
    · obtain rfl : q = .pF2 := Prefix.byte_inj h
      rfl
    · obtain rfl : q = .p66 := Prefix.byte_inj h
      rfl
    · obtain ⟨op, mk, hstore⟩ := decodeOpcode_store (fun hq => h (congrArg Prefix.byte hq)) rex
      rw [hstore, decodeM_sib hmod hrm]
    · obtain ⟨op, mk, hstore⟩ := decodeOpcode_store (fun hq => h (congrArg Prefix.byte hq)) rex
      rw [hstore, decodeM_ripRelative hmod hrm]
    · obtain rfl : q = .pF3 := Prefix.byte_inj h
      rcases hb with rfl | rfl <;> rfl
    · obtain rfl : q = .p66 := Prefix.byte_inj h
      rfl
  · -- the byte behind a mandatory byte
    obtain ⟨q, rfl⟩ := exists_prefix_of_mandatory hp
    refine ⟨fun hb => ?_, fun hb => ?_, fun hb => ?_, fun hb => ?_⟩
    · simp only [decode_prefix_isRex hb]
      exact ⟨rfl, fun hwx => decodeRex_wx hwx q tail, fun hwx hc => decodeRex_misplaced hwx hc q tail⟩
    · obtain ⟨h0F, hrex, hname⟩ := rejectByte_of_prefix hb
      rw [decode_prefix_rejectByte h0F hrex, hname]
    · obtain ⟨h0F, hrex, hname⟩ := rejectByte_of_vex hb
      rw [decode_prefix_rejectByte h0F hrex, hname]
    · have ⟨h0F, hrex, _⟩ := hb
      rw [decode_prefix_rejectByte h0F hrex, rejectByte_of_plain hb]
  · -- the first byte
    obtain ⟨h0F, hrex, hname⟩ := rejectByte_of_prefix (List.mem_append_right _ hb)
    rw [decode_rejectByte h0F hrex (refused_not_mandatory (List.mem_append_left _ hb)), hname]
  · obtain ⟨h0F, hrex, hname⟩ := rejectByte_of_vex hb
    rw [decode_rejectByte h0F hrex (refused_not_mandatory (List.mem_append_right _ hb)), hname]
  · have ⟨h0F, hrex, hp, _⟩ := hb
    rw [decode_rejectByte h0F hrex hp, rejectByte_of_plain hb]
  · -- the ModRM byte of the fence's opcode
    have hF8 : modrm ≠ 0xF8 := by bv_omega
    rw [decode_fence_modrm m hF8, if_pos h]
  · have hF8 : modrm ≠ 0xF8 := by bv_omega
    have hF9 : ¬ (0xF9 : Byte) ≤ modrm := by bv_omega
    rw [decode_fence_modrm m hF8, if_neg hF9]

/-- Settles O15: a raw length of 0 is 64, which fits index 0 alone; the count adds the valid indices over the raw lengths. -/
theorem validDescriptors : Obligations.ValidDescriptors := by
  constructor
  · intro c
    have hlen := (c.extractLsb' 0 6).isLt
    rw [decodeDesc_eq, decide_eq_true_iff, rawLen, rawIdx]
    split <;> omega
  · rw [List.countP_flatMap]
    exact (congrArg List.sum (List.map_congr_left fun l hl => countP_valid (List.mem_range.1 hl))).trans (by decide)

/-- Settles O16: the word has the raw fields `idx` and `len` modulo 64. -/
theorem encodedDescriptorReadsBack : Obligations.EncodedDescriptorReadsBack := by
  refine ⟨fun idx len hi h1 hl => ?_, rfl, rfl⟩
  have hlen : (if len % 64 = 0 then 64 else len % 64) = len := by split <;> omega
  rw [encodeDesc_eq, decodeDesc_ofNat hi (Nat.mod_lt _ (by omega)), hlen, BitVec.toNat_ofNat]
  exact ⟨rfl, by omega⟩

/-- Settles O17: the checks and the result read the descriptor through its raw fields, and the write leaves the word alone or
writes over it. -/
theorem ignoredDescriptorBits : Obligations.IgnoredDescriptorBits := by
  intro s t rex d y c
  constructor
  · intro hy hlen hidx h
    obtain ⟨⟨hcap, ⟨hd, hw⟩, hvalid⟩, rfl⟩ := exec_extrq_eq_next.1 h
    have hdesc := decodeDesc_congr hlen hidx
    have hdata : (s.withVal y c .lane0).lane d .lane0 = s.lane d .lane0 := by
      rw [State.withVal_lane, if_neg fun h => hy h.1.symm]
    have hword : (s.withVal y c .lane0).lane y .lane0 = { (s.lane y .lane0) with val := c } := by
      rw [State.withVal_lane, if_pos ⟨rfl, rfl⟩]
    rw [withLane0_eq, withLane0_eq, exec_extrq_eq_next, hdata, hword]
    refine ⟨⟨hcap, ⟨hd, hw⟩, by rwa [hdesc]⟩, ?_⟩
    rw [fieldState_withVal, if_neg hy, fieldState_congr s _ d hdesc]
  · intro hlen hidx h
    obtain ⟨⟨hcap, ⟨hd, hw, hw1⟩, hvalid⟩, rfl⟩ := exec_insertq_eq_next.1 h
    have hdesc := decodeDesc_congr hlen hidx
    have hdata : ∀ r, (s.withVal y c .lane1).lane r .lane0 = s.lane r .lane0 := fun r => by
      rw [State.withVal_lane, if_neg fun h => nomatch h.2]
    have hword : (s.withVal y c .lane1).lane y .lane1 = { (s.lane y .lane1) with val := c } := by
      rw [State.withVal_lane, if_pos ⟨rfl, rfl⟩]
    rw [withLane1_eq, withLane1_eq, exec_insertq_eq_next, hdata, hdata, hword]
    refine ⟨⟨hcap, ⟨hd, hw, hw1⟩, by rwa [hdesc]⟩, ?_⟩
    rw [fieldState_withVal, fieldState_congr s _ d hdesc]

/-- Settles O28: the sum wraps, and extending the displacement to 64 bits keeps its signed value. -/
theorem effectiveAddressWraps : Obligations.EffectiveAddressWraps := by
  intro s b
  refine ⟨?_, fun v => ?_, fun v => ?_⟩
  · simp [s.effectiveAddress_toNat, dispValue]
  · rw [s.effectiveAddress_toNat, dispValue, BitVec.toInt_signExtend_of_le (by decide)]
  · rw [s.effectiveAddress_toNat, dispValue, BitVec.toInt_signExtend_of_le (by decide)]

/-- Settles O5: the decoder evaluated on the seven words. -/
theorem wordsOfTheSpecDecode : Obligations.WordsOfTheSpecDecode := by
  unfold Obligations.WordsOfTheSpecDecode
  decide

end Sys2Proof.Proofs
end

section
/-! PROOFS. The laws of the codec, and what the two bit-field instructions have in common (40_bitfield.md R100 to R122). -/

namespace Sys2Proof.Machine

open Sys2Proof.Claims

/-! ### The laws of the codec (R122) -/

/-- Round trip: the field that was put in comes out. -/
theorem extractField_insertField (a b : Word) {len idx : Nat} (hfit : idx + len ≤ 64) :
    extractField (insertField a b len idx) len idx = b &&& mask len := by
  have hlen : len ≤ 64 := by omega
  refine BitVec.eq_of_getLsbD_eq fun k hk => ?_
  rw [getLsbD_extractField hlen, BitVec.getLsbD_and, getLsbD_mask hlen, Bool.and_comm]
  by_cases hin : k < len
  · rw [getLsbD_insertField hlen (by omega), if_pos (by omega), Nat.add_sub_cancel_left]
  · rw [decide_eq_false hin, Bool.and_false, Bool.and_false]

/-- Identity: the whole lane is a field. -/
theorem extractField_whole (a : Word) : extractField a 64 0 = a := by
  refine BitVec.eq_of_getLsbD_eq fun k hk => ?_
  rw [getLsbD_extractField le_rfl, Nat.zero_add, decide_eq_true hk, Bool.true_and]

/-- Restore: putting the old field back undoes an insertion. -/
theorem insertField_restore (a b : Word) {len idx : Nat} (hlen : len ≤ 64) :
    insertField (insertField a b len idx) (extractField a len idx) len idx = a := by
  refine BitVec.eq_of_getLsbD_eq fun k hk => ?_
  rw [getLsbD_insertField hlen hk, getLsbD_insertField hlen hk]
  split
  next hin => rw [getLsbD_extractField hlen, decide_eq_true (by omega), Bool.true_and, Nat.add_sub_cancel' hin.1]
  next => rfl

/-- Zero outside: an extracted field has no bit from `len` on. -/
theorem extractField_ushiftRight_len (a : Word) {len : Nat} (idx : Nat) (hlen : len ≤ 64) :
    extractField a len idx >>> len = 0 := by
  refine BitVec.eq_of_getLsbD_eq fun k hk => ?_
  rw [BitVec.getLsbD_ushiftRight, getLsbD_extractField hlen]
  simp

/-- Preservation: an insertion leaves every bit outside the field. -/
theorem insertField_and_not_mask (a b : Word) (len idx : Nat) :
    insertField a b len idx &&& ~~~(mask len <<< idx) = a &&& ~~~(mask len <<< idx) := by
  have hfield : (b &&& mask len) <<< idx &&& ~~~(mask len <<< idx) = 0 := by
    rw [BitVec.shiftLeft_and_distrib, BitVec.and_assoc, BitVec.and_not_self]
    exact BitVec.and_zero
  rw [insertField, BitVec.and_comm, BitVec.and_or_distrib_left, BitVec.and_comm _ ((b &&& mask len) <<< idx), hfield,
    BitVec.and_comm, BitVec.and_assoc, BitVec.and_self]
  exact BitVec.or_zero

/-! ### A result under a valid descriptor, and under another -/

/-- A descriptor that breaks the range is not valid (R72, R102). -/
theorem valid_eq_false_of_breaksRange {c : Word} (h : breaksRange c) : (decodeDesc c).valid = false := by
  rw [breaksRange, rawLen, rawIdx] at h
  rw [decodeDesc_eq, decide_eq_false_iff_not]
  split <;> omega

theorem laneDraws_of_valid {c : Word} (h : (decodeDesc c).valid = true) : laneDraws c = 0 := if_pos h

theorem laneDraws_of_breaksRange {c : Word} (h : breaksRange c) : laneDraws c = 1 := by
  rw [laneDraws, valid_eq_false_of_breaksRange h]; rfl

/-- Under a valid descriptor lane 0 is the codec's value (R100, R110). -/
theorem fieldState_lane0_of_valid (s : State) (i : Instr) (d : XReg) {c : Word} (f : Nat → Nat → Word)
    (h : (decodeDesc c).valid = true) :
    (fieldState s i d c f).lane d .lane0 = { val := f (decodeDesc c).len (decodeDesc c).idx, written := true } := by
  rw [fieldState_lane0, laneValue, if_pos h]

/-- Under any other descriptor lane 0 is the first of two draws (R102). -/
theorem fieldState_lane0_of_breaksRange (s : State) (i : Instr) (d : XReg) {c : Word} (f : Nat → Nat → Word)
    (h : breaksRange c) : (fieldState s i d c f).lane d .lane0 = { val := Config.draw s.draws, written := true } := by
  rw [fieldState_lane0, laneValue, valid_eq_false_of_breaksRange h]; rfl

/-- When a bit-field instruction completes, whichever of the two it is, and the shape of the state it leaves. -/
theorem exec_isField_eq_next {s : State} {i : Instr} {c : Word} {rex : Bool} {d y : XReg} (hi : isField s i c rex d y) :
    ∃ f, ∀ t, exec i s = .next t ↔
      (s.platform.capSse4a = true ∧ (s.lane d .lane0).written = true ∧ (s.lane y .lane0).written = true ∧
        (i.op = .insertq → (s.lane y .lane1).written = true) ∧
        ((decodeDesc c).valid = true ∨ s.platform.bfRange = .draw)) ∧ fieldState s i d c f = t := by
  obtain ⟨rfl, rfl⟩ | ⟨rfl, rfl⟩ := hi
  · exact ⟨extractField (s.lane d .lane0).val, fun t => by simp [exec_extrq_eq_next, Instr.op, and_assoc]⟩
  · exact ⟨insertField (s.lane d .lane0).val (s.lane y .lane0).val, fun t => by
      simp [exec_insertq_eq_next, Instr.op, and_assoc]⟩

theorem length_isField {s : State} {i : Instr} {c : Word} {rex : Bool} {d y : XReg} (hi : isField s i c rex d y) :
    i.length = 4 + rex.toNat := by
  obtain ⟨rfl, -⟩ | ⟨rfl, -⟩ := hi <;> rfl

end Sys2Proof.Machine
end

section
/-! PROOFS. The obligations of the family 40_bitfield.md. -/

namespace Sys2Proof.Proofs

open Sys2Proof.Machine Sys2Proof.Claims

/-- Settles O18: no check applies, and lane 0 is the extracted field, read bit by bit. -/
theorem extrqExtractsTheField : Obligations.ExtrqExtractsTheField := by
  rintro s rex d y f hcap hd hy rfl hv
  have hlen := decodeDesc_len_le (s.lane y .lane0).val
  refine ⟨_, exec_extrq_eq_next.2 ⟨⟨hcap, ⟨hd, hy⟩, .inl hv⟩, rfl⟩, ?_⟩
  rw [fieldState_lane0_of_valid _ _ _ _ hv, fieldState_lane1]
  refine ⟨fun k hk => ?_, fun k hk _ => ?_, rfl, rfl, rfl⟩
  · rw [getLsbD_extractField hlen, decide_eq_true hk, Bool.true_and]
  · rw [getLsbD_extractField hlen, decide_eq_false hk.not_gt, Bool.false_and]

/-- Settles O19: no check applies, and lane 0 is the insertion, read bit by bit inside the field and outside it. -/
theorem insertqReplacesTheField : Obligations.InsertqReplacesTheField := by
  rintro s rex d y f hcap hd hy hy1 rfl hv
  have hlen := decodeDesc_len_le (s.lane y .lane1).val
  have hfit := (decodeDesc_valid_iff _).1 hv
  refine ⟨_, exec_insertq_eq_next.2 ⟨⟨hcap, ⟨hd, hy, hy1⟩, .inl hv⟩, rfl⟩, ?_⟩
  rw [fieldState_lane0_of_valid _ _ _ _ hv, fieldState_lane1]
  refine ⟨fun k hk => ?_, fun k hk hout => ?_, rfl, rfl, rfl⟩
  · rw [getLsbD_insertField hlen (by omega), if_pos (by omega), Nat.add_sub_cancel_left]
  · rw [getLsbD_insertField hlen hk, if_neg (by omega)]

/-- Settles O20: lane 1 takes the last draw, before which lane 0 took one or none. -/
theorem laneOneIsAFreshDraw : Obligations.LaneOneIsAFreshDraw := by
  intro s t i c rex d y hi h
  obtain ⟨f, hexec⟩ := exec_isField_eq_next hi
  obtain ⟨-, rfl⟩ := (hexec t).1 h
  refine ⟨s.draws + laneDraws c, Nat.le_add_right .., rfl, fieldState_lane1 .., fun hv => ?_⟩
  rw [laneDraws_of_valid hv, Nat.add_zero]

/-- Settles O22: the policy lets the descriptor through, lane 0 takes the first draw and lane 1 the second. -/
theorem rangeViolationDraws : Obligations.RangeViolationDraws := by
  intro s i c rex d y hi hcap hd hy hy1 hbreak hdraw
  obtain ⟨f, hexec⟩ := exec_isField_eq_next hi
  have h := (hexec _).2 ⟨⟨hcap, hd, hy, hy1, .inr hdraw⟩, rfl⟩
  have hdraws := laneDraws_of_breaksRange hbreak
  refine ⟨_, h, fieldState_lane0_of_breaksRange _ _ _ _ hbreak, ?_, ?_, length_isField hi ▸ exec_pc h⟩
  · rw [fieldState_lane1, hdraws]
  · show s.draws + laneDraws c + 1 = _
    rw [hdraws]

/-- Settles O23: what completes and what it gives is said for any two operands, one register twice among them, in terms of the
lanes before the step. -/
theorem sameRegisterReadsOldValues : Obligations.SameRegisterReadsOldValues := by
  intro s rex d hcap hd
  refine ⟨fun hv => ?_, fun hd1 hv => ?_⟩
  · refine ⟨_, exec_extrq_eq_next.2 ⟨⟨hcap, ⟨hd, hd⟩, .inl hv⟩, rfl⟩, fun k _ => ?_⟩
    rw [fieldState_lane0_of_valid _ _ _ _ hv, getLsbD_extractField (decodeDesc_len_le _)]
  · refine ⟨_, exec_insertq_eq_next.2 ⟨⟨hcap, ⟨hd, hd, hd1⟩, .inl hv⟩, rfl⟩, fun k hk => ?_⟩
    rw [fieldState_lane0_of_valid _ _ _ _ hv, getLsbD_insertField (decodeDesc_len_le _) hk]

/-- Settles O25: the five laws, each for the fields that a valid descriptor gives. -/
theorem codecLaws : Obligations.CodecLaws := by
  rintro a b c len idx hv rfl rfl
  have hlen := decodeDesc_len_le c
  exact ⟨extractField_insertField a b ((decodeDesc_valid_iff c).1 hv), extractField_whole a, insertField_restore a b hlen,
    fun _ => extractField_ushiftRight_len a _ hlen, insertField_and_not_mask a b _ _⟩

/-- Settles O26: INSERTQ leaves the other register's descriptor and marks its own lanes, and the round trip gives the bits. -/
theorem insertThenExtractGivesTheBits : Obligations.InsertThenExtractGivesTheBits := by
  intro s t rex rex' d y z hz h hv hwritten hlen hidx
  obtain ⟨⟨hcap, -, -⟩, ht⟩ := exec_insertq_eq_next.1 h
  have hdata : t.lane d .lane0 =
      { val := insertField (s.lane d .lane0).val (s.lane y .lane0).val (decodeDesc (s.lane y .lane1).val).len
          (decodeDesc (s.lane y .lane1).val).idx, written := true } := by
    rw [← ht, fieldState_lane0_of_valid _ _ _ _ hv]
  have hword : t.lane z .lane0 = s.lane z .lane0 := by rw [← ht, fieldState_lane, if_neg hz]
  have hdesc : decodeDesc (t.lane z .lane0).val = decodeDesc (s.lane y .lane1).val := by
    rw [hword, decodeDesc_congr hlen hidx]
  have hv' : (decodeDesc (t.lane z .lane0).val).valid = true := by rwa [hdesc]
  refine ⟨_, exec_extrq_eq_next.2 ⟨⟨?_, ⟨?_, ?_⟩, .inl hv'⟩, rfl⟩, ?_⟩
  · rwa [(exec_sameFrame h).platform]
  · rw [hdata]
  · rwa [hword]
  · rw [fieldState_lane0_of_valid _ _ _ _ hv', hdesc, hdata]
    exact extractField_insertField _ _ ((decodeDesc_valid_iff _).1 hv)

end Sys2Proof.Proofs
end

section
/-! PROOFS. The obligation of the family 41_streaming_store.md that says what a completed store leaves. -/

namespace Sys2Proof.Proofs

open Sys2Proof.Machine Sys2Proof.Claims

theorem length_isStore {i : Instr} {n : Nat} {rex : Bool} {b : GReg} {disp : Disp} {y : XReg} (hi : isStore i n rex b disp y) :
    i.length = 4 + rex.toNat + disp.length := by
  obtain ⟨rfl, -⟩ | ⟨rfl, -⟩ := hi <;> rfl

/-- Settles O29: no check applies, and the entry holds the lane's low bytes in little-endian order. -/
theorem streamingStoreAppendsAnEntry : Obligations.StreamingStoreAppendsAnEntry := by
  rintro s i n rex b disp y ea hi rfl hcap hwritten hvalid halign hmeets
  have hclear : ∀ a ∈ byteAddrs s.mode (s.effectiveAddress b disp) n, a ∉ s.allPending :=
    fun a ha hpending => hmeets ⟨a, ha, hpending⟩
  have hnext := (exec_isStore_eq_next hi).2 ⟨⟨hcap, hwritten, hvalid, halign, hclear⟩, rfl⟩
  exact ⟨_, littleEndian n (s.lane y .lane0).val, hnext, rfl, littleEndian_length .., fun _ => littleEndian_getElem? _, rfl,
    length_isStore hi ▸ exec_pc hnext⟩

end Sys2Proof.Proofs
end

section
/-! PROOFS. What committing pending entries leaves in memory: where no byte is pending twice, every entry's own bytes, in
whatever order the entries are taken (42_store_fence.md R151). -/

namespace Sys2Proof.Machine

/-! ### Cells with different addresses -/

/-- Where no address is written twice, the order of the writes decides nothing. -/
theorem writeCells_perm {m : Memory} (hm : m.wf) {cs ds : List Host.Cell} (hp : cs.Perm ds) (hn : (cs.map Prod.fst).Nodup) :
    writeCells m cs = writeCells m ds := by
  refine Memory.ext_read (wf_writeCells hm cs) (wf_writeCells hm ds) fun x => ?_
  by_cases hx : ∃ c ∈ cs, c.1 = x
  · obtain ⟨c, hc, rfl⟩ := hx
    rw [read_writeCells_mem m hn hc, read_writeCells_mem m ((hp.map _).nodup_iff.1 hn) (hp.mem_iff.1 hc)]
  · have hcs : ∀ c ∈ cs, c.1 ≠ x := fun c hc h => hx ⟨c, hc, h⟩
    rw [read_writeCells_other m hcs, read_writeCells_other m fun c hc => hcs c (hp.mem_iff.2 hc)]

/-! ### Entries with different bytes -/

/-- The addresses that pending entries write are those of their bytes (R27, R41). -/
theorem flatMap_storeCells_keys (md : Mode) (es : List NTEntry) :
    (es.flatMap fun e => storeCells md e.addr e.bytes).map Prod.fst =
      (es.flatMap fun e => byteAddrs md e.addr e.bytes.length).map BitVec.toNat := by
  simp only [List.map_flatMap, storeCells_keys]

theorem flatMap_storeCells_nodup {md : Mode} {es : List NTEntry}
    (hn : (es.flatMap fun e => byteAddrs md e.addr e.bytes.length).Nodup) :
    ((es.flatMap fun e => storeCells md e.addr e.bytes).map Prod.fst).Nodup := by
  rw [flatMap_storeCells_keys]
  exact hn.map BitVec.toNat_injective

/-- A committed byte stands in memory, whatever memory held and whatever else is committed (R151). -/
theorem commitEntries_read_mem {md : Mode} {es : List NTEntry}
    (hn : (es.flatMap fun e => byteAddrs md e.addr e.bytes.length).Nodup) (m : Memory)
    {e : NTEntry} (he : e ∈ es) {k : Nat} (hk : k < e.bytes.length) :
    some ((commitEntries md m es).read (wrap md (e.addr + BitVec.ofNat 64 k)).toNat) = e.bytes[k]? := by
  have hcell : (storeCells md e.addr e.bytes)[k]? = some ((wrap md (e.addr + BitVec.ofNat 64 k)).toNat, e.bytes[k]) := by
    rw [storeCells_getElem?, List.getElem?_eq_getElem hk, Option.map_some]
  rw [commitEntries_eq, List.getElem?_eq_getElem hk]
  exact congrArg some
    (read_writeCells_mem m (flatMap_storeCells_nodup hn) (List.mem_flatMap.2 ⟨e, he, List.mem_of_getElem? hcell⟩))

/-- Where entries share no byte, the order of the commits decides nothing (R151). -/
theorem commitEntries_perm {md : Mode} {es : List NTEntry}
    (hn : (es.flatMap fun e => byteAddrs md e.addr e.bytes.length).Nodup) {m : Memory} (hm : m.wf)
    {fs : List NTEntry} (hp : es.Perm fs) :
    commitEntries md m es = commitEntries md m fs := by
  rw [commitEntries_eq, commitEntries_eq]
  exact writeCells_perm hm (hp.flatMap_right _) (flatMap_storeCells_nodup hn)

/-! ### Legal states and the fence -/

/-- A legal state's pending entries have as many bytes as they say (R27, R132). -/
theorem State.legal.length_bytes {s : State} (hs : s.legal) {e : NTEntry} (he : e ∈ s.cur.nt) : e.bytes.length = e.n := by
  obtain ⟨-, hthreads, -⟩ := hs
  obtain ⟨-, -, -, hentries⟩ := hthreads s.cur List.mem_cons_self
  obtain ⟨-, hlen, -⟩ := hentries e he
  exact hlen

/-- In a legal state the issuing thread's entries share no byte, with one another or within one (R132). -/
theorem State.legal.entries_nodup {s : State} (hs : s.legal) :
    (s.cur.nt.flatMap fun e => byteAddrs s.mode e.addr e.bytes.length).Nodup := by
  have hpending : (s.cur.pendingBytes s.mode).Nodup := by
    obtain ⟨-, -, -, -, hall⟩ := hs
    exact (s.allPending_eq ▸ hall).of_append_left
  have hbytes : s.cur.pendingBytes s.mode = s.cur.nt.flatMap fun e => byteAddrs s.mode e.addr e.bytes.length :=
    List.flatMap_congr fun e he => by rw [hs.length_bytes he]
  exact hbytes ▸ hpending

/-- The fence commits the entries over memory as the thread's own loads see it: its buffered stores drain first (R151, R152). -/
theorem fenceState_mem (s : State) : (fenceState s).mem = commitEntries s.mode s.loadView s.cur.nt := rfl

end Sys2Proof.Machine
end

section
/-! PROOFS. The obligations of the family 42_store_fence.md. -/

namespace Sys2Proof.Proofs

open Sys2Proof.Machine Sys2Proof.Claims

/-- Settles O33: the capability is the one check, and the entries of a legal state are committed without one overwriting another. -/
theorem sfenceCommitsEveryEntry : Obligations.SfenceCommitsEveryEntry := by
  intro s hcap
  have hnext := exec_sfence_eq_next.2 ⟨hcap, rfl⟩
  refine ⟨fenceState s, hnext, rfl, rfl, exec_pc hnext, fun hs e he k hk => ?_⟩
  rw [fenceState_mem]
  exact commitEntries_read_mem hs.entries_nodup _ he (hs.length_bytes he ▸ hk)

/-- Settles O34: memory changes by the drain and the commits alone, each within its own bytes. -/
theorem sfenceFrame : Obligations.SfenceFrame := by
  intro s t h
  obtain ⟨-, rfl⟩ := exec_sfence_eq_next.1 h
  refine ⟨fun x hentries hbuffered => ?_, rfl, rfl, rfl, rfl, rfl, rfl, rfl, rfl, rfl, rfl, rfl, rfl⟩
  rw [fenceState_mem, commitEntries_read_other _ _ hentries]
  exact drainStores_read_other _ _ hbuffered

/-- Settles O36: no byte is pending twice, so the entries write different addresses. -/
theorem commitOrderCannotBeSeen : Obligations.CommitOrderCannotBeSeen := by
  intro s es m hs hm hp
  exact (commitEntries_perm hs.entries_nodup hm hp.symm).symm

/-- Settles O37: the buffer has drained, and the commits go over what the thread's own loads saw. -/
theorem fencePublishesOrdinaryStores : Obligations.FencePublishesOrdinaryStores := by
  intro s t h
  obtain ⟨-, rfl⟩ := exec_sfence_eq_next.1 h
  refine ⟨rfl, loadView_fenceState s, fun x hentries => ?_⟩
  rw [fenceState_mem, commitEntries_read_other _ _ hentries]

end Sys2Proof.Proofs
end

section
/-! PROOFS. Byte strings that are an illegal ModRM form, and verdicts that the longest instruction's bytes decide
(30_encoding.md R83, R86). -/

namespace Sys2Proof

open Sys2Proof.Claims

/-- Format RR with `mod != 11` is illegal (R83). -/
theorem decodeRR_illegal {modrm : Byte} (h : modField modrm ≠ 3) (op : Op) (mk : Bool → XReg → XReg → Instr)
    (rex : Option RexBits) (tail : List Byte) : decodeRR op mk rex (modrm :: tail) = .illegal op (modrmEnd rex) :=
  if_neg h

/-- Format M with `mod = 11` is illegal (R83). -/
theorem decodeM_illegal {modrm : Byte} (h : modField modrm = 3) (op : Op) (mk : Bool → GReg → Disp → XReg → Instr)
    (rex : Option RexBits) (tail : List Byte) : decodeM op mk rex (modrm :: tail) = .illegal op (modrmEnd rex) :=
  if_pos h

/-- Mandatory byte, optional REX, `0F`, opcode and ModRM end where the form ends that `modrmEnd` counts (R86). -/
theorem length_through_modrm (p b modrm : Byte) (rex : Option RexBits) :
    (p :: (optRexBytes rex ++ [0x0F, b, modrm])).length = modrmEnd rex := by
  cases rex <;> rfl

theorem modrmEnd_le (rex : Option RexBits) : modrmEnd rex ≤ maxLength := by
  unfold modrmEnd maxLength
  split <;> omega

/-- Each of the four operations has its illegal ModRM forms, which are recognised at the ModRM byte (R83). -/
theorem decode_illegal {m : Mode} {rx bs : List Byte} {modrm : Byte} {op : Op} (hrx : rx ∈ rexChoices m)
    (h : (modField modrm ≠ 3 ∧ (op = .extrq ∧ bs = 0x66 :: (rx ++ [0x0F, 0x79, modrm]) ∨
          op = .insertq ∧ bs = 0xF2 :: (rx ++ [0x0F, 0x79, modrm]))) ∨
        (modField modrm = 3 ∧ (op = .movntsd ∧ bs = 0xF2 :: (rx ++ [0x0F, 0x2B, modrm]) ∨
          op = .movntss ∧ bs = 0xF3 :: (rx ++ [0x0F, 0x2B, modrm])))) :
    decode m bs = .illegal op bs.length ∧ bs.length ≤ maxLength := by
  obtain ⟨rex, hrex, rfl⟩ := exists_rex_of_choice hrx
  have form (q : Prefix) (b : Byte) (hop : decodeOpcode q rex [b, modrm] = .illegal op (modrmEnd rex)) :
      decode m (q.byte :: (optRexBytes rex ++ [0x0F, b, modrm])) =
          .illegal op (q.byte :: (optRexBytes rex ++ [0x0F, b, modrm])).length ∧
        (q.byte :: (optRexBytes rex ++ [0x0F, b, modrm])).length ≤ maxLength := by
    rw [length_through_modrm]
    exact ⟨(decode_prefix hrex q _).trans hop, modrmEnd_le rex⟩
  obtain ⟨hmod, ⟨rfl, rfl⟩ | ⟨rfl, rfl⟩⟩ | ⟨hmod, ⟨rfl, rfl⟩ | ⟨rfl, rfl⟩⟩ := h
  · exact form .p66 0x79 (decodeRR_illegal hmod _ _ rex [])
  · exact form .pF2 0x79 (decodeRR_illegal hmod _ _ rex [])
  · exact form .pF2 0x2B (decodeM_illegal hmod _ _ rex [])
  · exact form .pF3 0x2B (decodeM_illegal hmod _ _ rex [])

/-- A string's first nine bytes have its verdict (R86). -/
theorem decode_take_maxLength {m : Mode} {bs : List Byte} : decode m (bs.take maxLength) = decode m bs := by
  by_cases hlen : bs.length ≤ maxLength
  · rw [List.take_of_length_le hlen]
  · have hverdict : decode m (bs.take maxLength) ≠ .refused .truncated :=
      decode_within m _ (List.length_take_of_le (by omega)).ge
    rw [← decode_stable m _ (bs.drop maxLength) hverdict, List.take_append_drop]

end Sys2Proof
end

section
/-! PROOFS. How a step ends early: what the fetch answers at bytes that are no instruction, which checks each instruction makes and
in which order, what each check raises, and where every entry of the fault record comes from (60_exceptions.md R160 to R170). -/

namespace Sys2Proof.Machine

open Sys2Proof.Claims

/-! ### The fetch of bytes that are no instruction -/

/-- The fetch sees the verdict of the bytes that stand at the pc, however many they are (R44, R86). -/
theorem decode_fetchBytes {s : State} {bs : List Byte} (h : standAtPc s bs bs.length)
    (hv : decode s.mode bs ≠ .refused .truncated) :
    decode s.mode (s.fetchBytes maxLength (wrap s.mode s.cur.pc)).1 = decode s.mode bs := by
  have hfirst : standAtPc s (bs.take maxLength) (bs.take maxLength).length := by
    intro k hk
    rw [List.length_take] at hk
    rw [List.getElem?_take_of_lt (by omega)]
    exact h k (by omega)
  obtain ⟨tail, htail⟩ := fetchBytes_standAtPc hfirst (List.length_take_le ..)
  rw [← decode_take_maxLength (bs := bs)] at hv ⊢
  rw [htail, decode_stable _ _ _ hv]

/-- At refused bytes the fetch stops with the decoder's reason (R84, R169). -/
theorem fetch_refused {s : State} {bs : List Byte} {r : Reject} (h : standAtPc s bs bs.length) (hr : r ≠ .truncated)
    (hd : decode s.mode bs = .refused r) : s.fetch = .stop (.refused (.encoding r)) := by
  have hfetched := (decode_fetchBytes h (by simpa [hd] using hr)).trans hd
  simp only [State.fetch, hfetched]

/-- At an illegal form the fetch stops with `InvalidOpcode` and the bytes up to ModRM (R83, R161). -/
theorem fetch_illegal {s : State} {bs : List Byte} {op : Op} (h : standAtPc s bs bs.length) (hl : bs.length ≤ maxLength)
    (hd : decode s.mode bs = .illegal op bs.length) :
    s.fetch = .stop (.fault (.invalidOpcode s.cur.id s.cur.pc op bs)) := by
  have hfetched := (decode_fetchBytes h (by simp [hd])).trans hd
  obtain ⟨tail, htail⟩ := fetchBytes_standAtPc h hl
  simp only [State.fetch, hfetched, State.raise]
  rw [htail, List.take_left]

/-- A step whose fetch stops ends as the fetch says. -/
theorem step_of_fetch_stop {s : State} {o : Host.Outcome State Fault Refusal} (hs : readyToIssue s) (h : s.fetch = .stop o) :
    step s = o := by
  obtain ⟨hr, he, ha⟩ := hs
  rw [step_nil hr ha, issue, he, h]
  rfl

/-! ### The refused mark -/

/-- A refused machine refuses every step with its mark (R169). -/
theorem step_of_refused {s : State} {r : Refusal} (h : s.refused = some r) : step s = .refused r := by
  simp only [step, h]

theorem State.markRefused_of_none {s : State} (h : s.refused = none) (r : Refusal) : (s.markRefused r).refused = some r := by
  simp [State.markRefused, h]

theorem State.markRefused_of_some {s : State} {q : Refusal} (h : s.refused = some q) (r : Refusal) : s.markRefused r = s := by
  simp [State.markRefused, h]

/-! ### The checks of an instruction -/

/-- The checks that an instruction makes, in the order of R170. -/
def instrChecks (s : State) : Instr → List (Option Fault)
  | .extrq rex d y =>
    [s.missingSse4a (.extrq rex d y), s.unwritten d .lane0, s.unwritten y .lane0, s.badRange .extrq (s.lane y .lane0).val]
  | .insertq rex d y =>
    [s.missingSse4a (.insertq rex d y), s.unwritten d .lane0, s.unwritten y .lane0, s.unwritten y .lane1,
      s.badRange .insertq (s.lane y .lane1).val]
  | .movntsd rex b disp y =>
    [s.missingSse4a (.movntsd rex b disp y), s.unwritten y .lane0, s.badAddress .movntsd (s.effectiveAddress b disp) 8,
      s.badAlignment .movntsd (s.effectiveAddress b disp) 8,
      s.unfenced (.streamingStore .movntsd) (s.effectiveAddress b disp) 8]
  | .movntss rex b disp y =>
    [s.missingSse4a (.movntss rex b disp y), s.unwritten y .lane0, s.badAddress .movntss (s.effectiveAddress b disp) 4,
      s.badAlignment .movntss (s.effectiveAddress b disp) 4,
      s.unfenced (.streamingStore .movntss) (s.effectiveAddress b disp) 4]
  | .sfence => [s.missingFence .sfence]

/-- An instruction makes its checks and then completes (R170). -/
theorem exec_eq_complete (i : Instr) (s : State) : ∃ t, exec i s = s.complete (instrChecks s i) t := by
  cases i <;> exact ⟨_, rfl⟩

/-- An instruction faults with the first of its checks that applies (R170). -/
theorem exec_eq_fault {i : Instr} {s : State} {f : Fault} :
    exec i s = .fault f ↔ (instrChecks s i).findSome? id = some f := by
  obtain ⟨t, ht⟩ := exec_eq_complete i s
  rw [ht, State.complete_eq_fault]

/-- The checks of both streaming stores (R132). -/
theorem instrChecks_isStore (s : State) {i : Instr} {n : Nat} {rex : Bool} {b : GReg} {disp : Disp} {y : XReg}
    (hi : isStore i n rex b disp y) :
    instrChecks s i =
      [s.missingSse4a i, s.unwritten y .lane0, s.badAddress i.op (s.effectiveAddress b disp) n,
        s.badAlignment i.op (s.effectiveAddress b disp) n,
        s.unfenced (.streamingStore i.op) (s.effectiveAddress b disp) n] := by
  obtain ⟨rfl, rfl⟩ | ⟨rfl, rfl⟩ := hi <;> rfl

/-- The first checks of both bit-field instructions (R100, R110). -/
theorem instrChecks_bitField (s : State) {i : Instr} {rex : Bool} {d y : XReg} (hi : i = .extrq rex d y ∨ i = .insertq rex d y) :
    ∃ rest, instrChecks s i = s.missingSse4a i :: s.unwritten d .lane0 :: s.unwritten y .lane0 :: rest := by
  obtain rfl | rfl := hi <;> exact ⟨_, rfl⟩

/-- Every instruction but SFENCE checks for SSE4A first (R161). -/
theorem instrChecks_sse4a (s : State) {i : Instr} (hi : i ≠ .sfence) : ∃ rest, instrChecks s i = s.missingSse4a i :: rest := by
  cases i with
  | sfence => exact absurd rfl hi
  | _ => exact ⟨_, rfl⟩

/-! ### What each check raises -/

theorem State.missingSse4a_eq_some {s : State} (h : s.platform.capSse4a = false) (i : Instr) :
    s.missingSse4a i = some (.invalidOpcode s.cur.id s.cur.pc i.op (encode i)) := by simp [State.missingSse4a, h]

theorem State.missingFence_eq_some {s : State} (h : s.platform.capFence = false) (i : Instr) :
    s.missingFence i = some (.invalidOpcode s.cur.id s.cur.pc i.op (encode i)) := by simp [State.missingFence, h]

theorem State.unwritten_eq_some {s : State} {i : XReg} {l : LaneNo} (h : (s.lane i l).written = false) :
    s.unwritten i l = some (.unwrittenRead s.cur.id s.cur.pc i l) := by simp [State.unwritten, h]

/-- The entry of a range violation holds the index, the length and the raw word (R162). -/
theorem State.badRange_eq_some {s : State} {c : Word} (h : breaksRange c) (hp : s.platform.bfRange = .fault) (op : Op) :
    s.badRange op c =
      some (.bitfieldRange s.cur.id s.cur.pc op (rawIdx c) (if rawLen c = 0 then 64 else rawLen c) c) := by
  simp only [State.badRange, valid_eq_false_of_breaksRange h, hp]
  rfl

theorem State.badAddress_eq_some {s : State} {ea : Addr} {n : Nat} (h : s.cur.validWrite ea n = false) (op : Op) :
    s.badAddress op ea n = some (.memoryFault s.cur.id s.cur.pc op ea n) := by simp [State.badAddress, h]

theorem State.badAlignment_eq_some {s : State} {ea : Addr} {n : Nat} (h : ea.toNat % n ≠ 0)
    (hp : s.platform.misalignedNt = .fault) (op : Op) :
    s.badAlignment op ea n = some (.misaligned s.cur.id s.cur.pc op ea n) := by simp only [State.badAlignment, if_neg h, hp]

/-! ### The thread and the pc of an entry -/

/-- The entry holds the issuing thread and its pc (R160). -/
def Fault.IssuedIn (f : Fault) (s : State) : Prop := f.thread = s.cur.id ∧ f.pc = s.cur.pc

/-- A check raises only entries of the issuing thread at its pc (R160). -/
def RaisesIssuedIn (s : State) (c : Option Fault) : Prop := ∀ f ∈ c, f.IssuedIn s

theorem RaisesIssuedIn.none (s : State) : RaisesIssuedIn s none := nofun

theorem RaisesIssuedIn.some {s : State} {f : Fault} (h : f.IssuedIn s) : RaisesIssuedIn s (some f) :=
  fun _ he => Option.mem_some.1 he ▸ h

theorem RaisesIssuedIn.ite {s : State} {c : Prop} [Decidable c] {x y : Option Fault} (hx : RaisesIssuedIn s x)
    (hy : RaisesIssuedIn s y) : RaisesIssuedIn s (if c then x else y) := by
  split
  · exact hx
  · exact hy

theorem State.missingSse4a_issuedIn (s : State) (i : Instr) : RaisesIssuedIn s (s.missingSse4a i) :=
  .ite (.none s) (.some ⟨rfl, rfl⟩)

theorem State.missingFence_issuedIn (s : State) (i : Instr) : RaisesIssuedIn s (s.missingFence i) :=
  .ite (.none s) (.some ⟨rfl, rfl⟩)

theorem State.unwritten_issuedIn (s : State) (i : XReg) (l : LaneNo) : RaisesIssuedIn s (s.unwritten i l) :=
  .ite (.none s) (.some ⟨rfl, rfl⟩)

theorem State.badAddress_issuedIn (s : State) (op : Op) (ea : Addr) (n : Nat) : RaisesIssuedIn s (s.badAddress op ea n) :=
  .ite (.none s) (.some ⟨rfl, rfl⟩)

theorem State.badRange_issuedIn (s : State) (op : Op) (c : Word) : RaisesIssuedIn s (s.badRange op c) := by
  refine .ite (.none s) ?_
  cases s.platform.bfRange with
  | fault => exact .some ⟨rfl, rfl⟩
  | draw => exact .none s

theorem State.badAlignment_issuedIn (s : State) (op : Op) (ea : Addr) (n : Nat) : RaisesIssuedIn s (s.badAlignment op ea n) := by
  refine .ite (.none s) ?_
  cases s.platform.misalignedNt with
  | fault => exact .some ⟨rfl, rfl⟩
  | perform => exact .none s

theorem State.unfenced_issuedIn (s : State) (access : Access) (addr : Addr) (n : Nat) :
    RaisesIssuedIn s (s.unfenced access addr n) := by
  unfold State.unfenced
  cases s.ownerOf (byteAddrs s.mode addr n) with
  | none => exact .none s
  | some owner => exact .some ⟨rfl, rfl⟩

/-- Each check of an instruction raises an entry of the issuing thread at its pc. -/
theorem instrChecks_issuedIn (s : State) (i : Instr) : ∀ c ∈ instrChecks s i, RaisesIssuedIn s c := by
  cases i <;>
    simp only [instrChecks, List.forall_mem_cons, List.not_mem_nil, false_imp_iff, implies_true, and_true,
      State.missingSse4a_issuedIn, State.missingFence_issuedIn, State.unwritten_issuedIn, State.badRange_issuedIn,
      State.badAddress_issuedIn, State.badAlignment_issuedIn, State.unfenced_issuedIn]

/-- A step that ends with a check's fault ends with an entry of the issuing thread at its pc. -/
theorem State.complete_issuedIn {s t : State} {cs : List (Option Fault)} {f : Fault} (hcs : ∀ c ∈ cs, RaisesIssuedIn s c)
    (h : s.complete cs t = .fault f) : f.IssuedIn s := by
  obtain ⟨c, hc, hf⟩ := List.exists_of_findSome?_eq_some (State.complete_eq_fault.1 h)
  exact hcs c hc f hf

theorem State.complete_single_issuedIn {s t : State} {c : Option Fault} {f : Fault} (hc : RaisesIssuedIn s c)
    (h : s.complete [c] t = .fault f) : f.IssuedIn s :=
  State.complete_issuedIn (List.forall_mem_singleton.2 hc) h

theorem exec_issuedIn {i : Instr} {s : State} {f : Fault} (h : exec i s = .fault f) : f.IssuedIn s := by
  obtain ⟨t, ht⟩ := exec_eq_complete i s
  exact State.complete_issuedIn (instrChecks_issuedIn s i) (ht ▸ h)

theorem fetchBytes_issuedIn (s : State) (k : Nat) (a : Addr) : RaisesIssuedIn s (s.fetchBytes k a).2 := by
  induction k generalizing a with
  | zero => exact .none s
  | succ k ih =>
    simp only [State.fetchBytes]
    split
    · exact ih _
    · next f hf => exact .some (s.unfenced_issuedIn .fetch a 1 f hf)

/-- A fetch that ends with a fault met an illegal form or a pending byte. -/
theorem fetch_issuedIn {s : State} {f : Fault} (h : s.fetch = .stop (.fault f)) : f.IssuedIn s := by
  simp only [State.fetch, State.raise] at h
  split at h
  · cases h
  · cases h
    exact ⟨rfl, rfl⟩
  · split at h
    · next e he =>
      cases h
      exact fetchBytes_issuedIn s _ _ _ he
    · cases h
  · cases h

theorem issue_issuedIn {s : State} {f : Fault} (h : issue s = .fault f) : f.IssuedIn s := by
  simp only [issue] at h
  split at h
  · cases h
  · split at h
    · exact exec_issuedIn h
    · next o ho => exact fetch_issuedIn (h ▸ ho)

/-- The host's accesses and the end of a run make one check each, and its other actions none (R50, R56). -/
theorem hostAct_issuedIn {act : HostAct} {s : State} {f : Fault} (h : hostAct act s = .fault f) : f.IssuedIn s := by
  cases act with
  | switch a =>
    simp only [hostAct, hostSwitch] at h
    split at h
    · cases h
    · split at h <;> cases h
  | drain a =>
    simp only [hostAct, hostDrain] at h
    split at h
    · cases h
    · split at h <;> cases h
  | load addr n => exact State.complete_single_issuedIn (s.unfenced_issuedIn _ _ _) h
  | store addr bytes => exact State.complete_single_issuedIn (s.unfenced_issuedIn _ _ _) h
  | read addr n => exact State.complete_single_issuedIn (s.unfenced_issuedIn _ _ _) h
  | endRun => exact State.complete_single_issuedIn (.ite (.none s) (.some ⟨rfl, rfl⟩)) h
  | syncFetch addr n => cases h
  | writeX i v => cases h
  | writeG r v => cases h
  | jump pc => cases h

/-- A running machine raises only entries of the issuing thread at its pc (R160). -/
theorem step_issuedIn {s : State} {f : Fault} (hr : s.running) (h : step s = .fault f) : f.IssuedIn s := by
  cases ha : s.agenda with
  | nil => exact issue_issuedIn (step_nil hr ha ▸ h)
  | cons turn rest =>
    cases turn with
    | issue => exact issue_issuedIn (s := { s with agenda := rest }) (step_issue hr ha ▸ h)
    | host act => exact hostAct_issuedIn (s := { s with agenda := rest }) (step_host hr ha ▸ h)

theorem State.recordFault_of_nil {s : State} (h : s.faults = []) (f : Fault) : s.recordFault f = { s with faults := [f] } := by
  simp [State.recordFault, h]

end Sys2Proof.Machine
end

section
/-! PROOFS. The obligations of the family 60_exceptions.md. -/

namespace Sys2Proof.Proofs

open Sys2Proof.Machine Sys2Proof.Claims

/-- Settles O9: the capability is the first check of every instruction, and at an illegal form the decoder reads up to ModRM. -/
theorem invalidOpcodeRaised : Obligations.InvalidOpcodeRaised := by
  refine ⟨fun s i hi hcap => ?_, fun s hcap => ?_, fun s rx modrm bs op hs hrx hstand hform => ?_, fun _ _ _ _ => ⟨rfl, rfl⟩⟩
  · obtain ⟨rest, hchecks⟩ := instrChecks_sse4a s hi
    rw [exec_eq_fault, hchecks, State.missingSse4a_eq_some hcap]
    rfl
  · rw [exec_eq_fault, instrChecks, State.missingFence_eq_some hcap]
    rfl
  · obtain ⟨hdecode, hlen⟩ := decode_illegal hrx hform
    exact step_of_fetch_stop hs (fetch_illegal hstand hlen hdecode)

/-- Settles O10: the fetch stops with the decoder's reason, and a machine with a mark refuses again and keeps it. -/
theorem refusalMarkStays : Obligations.RefusalMarkStays := by
  constructor
  · intro s bs r hs hr hdecode hstand
    have hstep := step_of_fetch_stop hs (fetch_refused hstand hr hdecode)
    obtain ⟨⟨hmark, -⟩, -⟩ := hs
    rw [afterStep, hstep, State.settle_refused]
    exact ⟨rfl, State.markRefused_of_none hmark _, State.markRefused_faults ..⟩
  · intro s hmark
    obtain ⟨r, hr⟩ := Option.ne_none_iff_exists'.1 hmark
    refine ⟨?_, fun ⟨_, _, hnone⟩ => hmark hnone⟩
    rw [afterStep, step_of_refused hr, State.settle_refused, State.markRefused_of_some hr]

/-- Settles O11: the record of a running machine is empty, and every check raises an entry of the issuing thread at its pc. -/
theorem faultChangesOnlyTheRecord : Obligations.FaultChangesOnlyTheRecord := by
  intro s f hr h
  obtain ⟨hthread, hpc⟩ := step_issuedIn hr h
  obtain ⟨-, hfaults⟩ := hr
  have hafter : afterStep s = { s with faults := [f] } := by
    rw [afterStep, h, State.settle_fault, State.recordFault_of_nil hfaults]
  refine ⟨hafter, hthread, hpc, fun ⟨_, hfinal, _⟩ => ?_⟩
  rw [hafter] at hfinal
  exact List.cons_ne_nil _ _ hfinal

/-- Settles O21: no earlier check applies, and the last one raises the entry with the descriptor's fields. -/
theorem rangeViolationFaults : Obligations.RangeViolationFaults := by
  refine ⟨fun s i c rex d y hi hcap hd hy hy1 hbreak hpolicy => ?_, fun _ _ _ _ _ _ => ⟨rfl, rfl⟩⟩
  have hfault : exec i s =
      .fault (.bitfieldRange s.cur.id s.cur.pc i.op (rawIdx c) (if rawLen c = 0 then 64 else rawLen c) c) := by
    have hsse4a := State.missingSse4a_eq_none (i := i).2 hcap
    rw [exec_eq_fault]
    obtain ⟨rfl, rfl⟩ | ⟨rfl, rfl⟩ := hi
    · rw [instrChecks, hsse4a, State.unwritten_eq_none.2 hd, State.unwritten_eq_none.2 hy,
        State.badRange_eq_some hbreak hpolicy]
      rfl
    · rw [instrChecks, hsse4a, State.unwritten_eq_none.2 hd, State.unwritten_eq_none.2 hy, State.unwritten_eq_none.2 (hy1 rfl),
        State.badRange_eq_some hbreak hpolicy]
      rfl
  exact ⟨hfault, by rw [hfault, State.settle_fault, State.recordFault_cur]⟩

/-- Settles O24: the lanes are checked in the rule's order, before the descriptor and the address. -/
theorem unwrittenLaneFaults : Obligations.UnwrittenLaneFaults := by
  intro s rex d y b disp hcap
  have hsse4a (i : Instr) := State.missingSse4a_eq_none (i := i).2 hcap
  refine ⟨fun i hi => ?_, fun hd hy hy1 => ?_, fun i n hi hy => ?_, fun _ _ _ _ => rfl⟩
  · obtain ⟨rest, hchecks⟩ := instrChecks_bitField s hi
    constructor
    · intro hd
      rw [exec_eq_fault, hchecks, hsse4a, State.unwritten_eq_some hd]
      rfl
    · intro hd hy
      rw [exec_eq_fault, hchecks, hsse4a, State.unwritten_eq_none.2 hd, State.unwritten_eq_some hy]
      rfl
  · rw [exec_eq_fault, instrChecks, hsse4a, State.unwritten_eq_none.2 hd, State.unwritten_eq_none.2 hy,
      State.unwritten_eq_some hy1]
    rfl
  · rw [exec_eq_fault, instrChecks_isStore s hi, hsse4a, State.unwritten_eq_some hy]
    rfl

/-- Settles O30: behind the capability and the lane come the address, the alignment and the pending bytes, in this order. -/
theorem streamingStoreFaultOrder : Obligations.StreamingStoreFaultOrder := by
  refine ⟨?_, fun _ _ _ _ _ => ⟨rfl, rfl⟩, fun _ _ _ _ _ => ⟨rfl, rfl⟩⟩
  rintro s i n rex b disp y ea hi rfl hcap hwritten
  simp only [exec_eq_fault, instrChecks_isStore s hi, State.missingSse4a_eq_none.2 hcap, State.unwritten_eq_none.2 hwritten]
  refine ⟨fun hvalid => ?_, fun hvalid halign hpolicy => ?_, fun hvalid halign hmeets => ?_⟩
  · rw [State.badAddress_eq_some hvalid]
    rfl
  · rw [State.badAddress_eq_none.2 hvalid, State.badAlignment_eq_some halign hpolicy]
    rfl
  · obtain ⟨owner, hholds, hfault⟩ := exists_owner_of_meetsPending hmeets
    refine ⟨owner, hholds, ?_⟩
    rw [State.badAddress_eq_none.2 hvalid, State.badAlignment_eq_none.2 halign, hfault]
    rfl

end Sys2Proof.Proofs
end

section
/-! PROOFS. What a launch gives (70_reset_and_hazards.md R191): the registers, the pending entries and the bytes that the fetch
sees. -/

namespace Sys2Proof

theorem bigEndian_length (k w : Nat) : (bigEndian k w).length = k := by
  induction k generalizing w with
  | zero => rfl
  | succ k ih => rw [bigEndian, List.length_append, ih, List.length_singleton]

/-- A word of the opcode table gives the bytes of one longest instruction (R86). -/
theorem tableBytes_length {nbits : Nat} (h : nbits ≤ 72) (w : Nat) : (tableBytes nbits w).length = maxLength := by
  rw [tableBytes, List.length_append, bigEndian_length, List.length_replicate, maxLength]
  omega

end Sys2Proof

namespace Sys2Proof.Machine

open Sys2Proof.Claims

/-- Marking the registers sets every lane's mark and keeps every lane's value (R26). -/
@[simp] theorem Thread.marked_lane (t : Thread) (i : XReg) (l : LaneNo) :
    (t.marked.x.get i).lane l = { val := ((t.x.get i).lane l).val, written := true } := by
  have hget : t.marked.x.get i = (t.x.get i).marked := by simp [Thread.marked, Vector.get_eq_getElem]
  rw [hget]
  cases l with
  | lane0 => rfl
  | lane1 => rfl

theorem State.launch_nt (s : State) (bytes : List Byte) : ∀ t ∈ (s.launch bytes).threads, t.nt = [] :=
  List.forall_mem_cons.2 ⟨rfl, List.forall_mem_map.2 fun _ _ => rfl⟩

theorem State.launch_lane (s : State) (bytes : List Byte) (i : XReg) (l : LaneNo) :
    (s.launch bytes).lane i l = { val := (s.lane i l).val, written := true } :=
  s.cur.marked_lane i l

/-- A byte is pending only in an entry (R28). -/
theorem State.not_mem_allPending_of_nt {s : State} (h : ∀ t ∈ s.threads, t.nt = []) (a : Addr) : a ∉ s.allPending := by
  rw [State.mem_allPending]
  rintro ⟨t, ht, ha⟩
  simp [Thread.pendingBytes, h t ht] at ha

/-- Memory and the issuing thread's own fetch view both get the bytes, so under either value of `FetchCoherence` the fetch sees
them (R57, log 10). -/
theorem State.launch_fetchView (s : State) (bytes : List Byte) :
    (s.launch bytes).fetchView = s.fetchView.writeBytes s.mode s.cur.pc bytes := by
  simp only [State.fetchView, State.launch]
  cases s.platform.fetchCoherence with
  | coherent => rfl
  | deferred => rfl

/-- The bytes of a launch stand at the pc, clear of pending bytes. -/
theorem State.launch_standAtPc (s : State) {bytes : List Byte} (hn : bytes.length ≤ 2 ^ 32) :
    standAtPc (s.launch bytes) bytes bytes.length := fun k hk => by
  refine ⟨State.not_mem_allPending_of_nt (s.launch_nt bytes) _, ?_⟩
  rw [State.launch_fetchView]
  exact Memory.read_writeBytes_same s.mode s.fetchView s.cur.pc hn hk

/-- Where there is one thread, a launch gives a value to every lane (R191). -/
theorem State.launch_launchState {s : State} (h : s.others = []) (bytes : List Byte) :
    (s.launch bytes).launchState fun _ _ _ => true := by
  refine ⟨s.launch_nt bytes, rfl, ?_⟩
  have hthreads : (s.launch bytes).threads = [(s.launch bytes).cur] := by simp [State.threads, State.launch, h]
  rw [hthreads, List.forall_mem_singleton]
  exact fun i l => congrArg Lane.written (s.launch_lane bytes i l)

end Sys2Proof.Machine
end

section
/-! PROOFS. The obligations of the family 70_reset_and_hazards.md. -/

namespace Sys2Proof.Proofs

open Sys2Proof.Machine Sys2Proof.Claims

/-- Settles O52: a launch puts its bytes at the pc in memory and in the fetch view, and marks every lane at its value. -/
theorem launchPlacesTheInstruction : Obligations.LaunchPlacesTheInstruction := by
  intro s nbits w hbits
  have hlength : (tableBytes nbits w).length ≤ 2 ^ 32 := by rw [tableBytes_length hbits, maxLength]; omega
  refine ⟨⟨⟨rfl, rfl⟩, rfl, rfl⟩, s.launch_standAtPc hlength, fun h => State.launch_launchState h _, fun i l => ?_⟩
  rw [State.withFetchWord, State.launch_lane]

/-- Settles O48: the one thread of reset has no entry, and each of its registers is `XEntry.reset`, whose marks are clear. -/
theorem resetLeavesLanesUnwritten : Obligations.ResetLeavesLanesUnwritten := by
  refine ⟨List.forall_mem_singleton.2 ⟨rfl, fun i l => ?_⟩, rfl⟩
  have hget : Thread.reset.x.get i = XEntry.reset := by simp [Thread.reset, Vector.get_eq_getElem]
  rw [State.reset, hget]
  cases l with
  | lane0 => rfl
  | lane1 => rfl

end Sys2Proof.Proofs
end
